-- ==== Sys2Proof/Word.lean ====
section
/-! DEFINITION. The word types of the machine and the spec's notation for values (00_scope.md R6, R10, R11). -/

namespace Sys2Proof

/-- A 32-bit unit of memory, a register or an encoded instruction (00 R6, R14); bit 31 is the most significant (00 R10). -/
abbrev Word := BitVec 32

/-- One cell of the model's byte view of memory (log 1). -/
abbrev Byte := BitVec 8

/-- A 5-bit register index, 0 .. 31 (00 R6, 40 R93). -/
abbrev RegIdx := BitVec 5

/-- `trunc32(z)` of 00 R11: the 32-bit value whose unsigned reading is `z mod 2^32`. The unsigned reading `u(v)` is
`v.toNat`, the two's-complement reading `s(v)` is `v.toInt`. -/
def trunc32 (z : Int) : Word := BitVec.ofInt 32 z

/-- `0 <= t < 2^32`, the range in which a next pc is representable (10 R27). -/
def inWordRange (t : Int) : Bool := decide (0 ≤ t ∧ t < 2 ^ 32)

/-- `toSignedBits(v, w)` of 30 R68: the `w`-bit value whose unsigned reading is `v mod 2^w`. -/
def toSignedBits (v : Int) (w : Nat) : BitVec w := BitVec.ofInt w v

/-- `fromSignedBits` of 00 R11, in the document's words: on a `1` sign bit the value is `-( (~bits as unsigned) + 1 )`, on `0`
the unsigned reading. -/
def fromSignedBits {w : Nat} (b : BitVec w) : Int :=
  if b.msb then -(((~~~b).toNat : Int) + 1) else b.toNat

end Sys2Proof
end

