-- ==== Sys2Proof/Config.lean ====
section
/-! DEFINITION. The parameters the spec says a model takes as arguments: the encoding table ENC (00_scope.md R8), MEM_WORDS and
STEP_LIMIT (R7), JALR_ALIAS (93_implementation_defined.md U6). Their values at reset are in Decode.lean (the table) and
Machine/Defaults.lean (the rest), where a repair can mend them. No free value: the spec leaves no result undefined. -/

namespace Sys2Proof

/-- The encoding constants of 00_scope.md R8, under the spec's names. -/
structure Enc where
  opcOp     : BitVec 7
  opcOpimm  : BitVec 7
  opcLoad   : BitVec 7
  opcJalr   : BitVec 7
  opcStore  : BitVec 7
  opcBranch : BitVec 7
  opcJal    : BitVec 7
  opcSystem : BitVec 7
  f3AddSub  : BitVec 3
  f3Slt     : BitVec 3
  f3Srl     : BitVec 3
  f3Or      : BitVec 3
  f3And     : BitVec 3
  f7Base    : BitVec 7
  f7Alt     : BitVec 7
  f3Addi    : BitVec 3
  f3Lw      : BitVec 3
  f3Jalr    : BitVec 3
  f3Sw      : BitVec 3
  f3Beq     : BitVec 3
  f3Bne     : BitVec 3
  f3Blt     : BitVec 3
  deriving DecidableEq, Repr

/-- `JALR_ALIAS` (42 R123, D10, U6): what `jalr` with rd = rs1 != 0 does. -/
inductive JalrAlias where
  /-- The target is formed from the old rs1 (the spec's default). -/
  | readFirst
  /-- "the model gives `jalr` with rd = rs1 != 0 no meaning". -/
  | refuse
  deriving DecidableEq, Repr

/-- The configuration of one machine; no instruction and no step changes it. -/
structure Config where
  /-- `MEM_WORDS`, the number of 32-bit words of memory (00 R7). -/
  memWords  : Nat
  /-- `STEP_LIMIT`, the "hard step counter" (00 R7). -/
  stepLimit : Nat
  /-- `JALR_ALIAS` (U6). -/
  jalrAlias : JalrAlias
  /-- `ENC` (00 R8, U15). -/
  enc       : Enc
  deriving DecidableEq, Repr

/-- The encoding table tells every instruction of 30 R70 to R74 apart: "The eight opcode values are distinct" (40 R91), the six
(funct3, funct7) pairs of the R class are distinct, and the three funct3 values of the B class are. -/
def Enc.wf (e : Enc) : Bool :=
  decide ([e.opcOp, e.opcOpimm, e.opcLoad, e.opcJalr, e.opcStore, e.opcBranch, e.opcJal, e.opcSystem].Nodup) &&
  decide ([(e.f3AddSub, e.f7Base), (e.f3AddSub, e.f7Alt), (e.f3Slt, e.f7Base), (e.f3Srl, e.f7Base), (e.f3Or, e.f7Base),
    (e.f3And, e.f7Base)].Nodup) &&
  decide ([e.f3Beq, e.f3Bne, e.f3Blt].Nodup)

/-- "this spec requires 1 <= MEM_WORDS <= 2^29 so that every in-bounds byte address is below 2^31" (00 R7, D26). -/
def Config.wf (c : Config) : Bool :=
  decide (1 ≤ c.memWords ∧ c.memWords ≤ 2 ^ 29) && c.enc.wf

end Sys2Proof
end

