-- ==== Sys2Proof/Syntax.lean ====
section
/-! DEFINITION. The instructions: one constructor per row of spec/opcode_table.json, fields in the order of the assembler syntax
(30_encoding.md R86). An immediate has its declared width (30 R67): 12 bits (I, S), 13 (B), 21 (J); bit 0 of a B or J immediate
is not stored in the word and is 0 in every well-formed instruction. -/

namespace Sys2Proof

inductive Instr where
  /-- The halt encoding `beq zero, zero, 0`, the single word 0x00000063 (44 R136). -/
  | halt
  /-- Any word of opcode 1110011 (46 R151); `ignored` is w[31:7], which no rule reads. -/
  | haltSys (ignored : BitVec 25)
  /-- 41 R111 -/
  | add  (rd rs1 rs2 : RegIdx)
  /-- 41 R112 -/
  | sub  (rd rs1 rs2 : RegIdx)
  /-- 41 R113 -/
  | slt  (rd rs1 rs2 : RegIdx)
  /-- 41 R114 -/
  | srl  (rd rs1 rs2 : RegIdx)
  /-- 41 R115 -/
  | or   (rd rs1 rs2 : RegIdx)
  /-- 41 R116 -/
  | and  (rd rs1 rs2 : RegIdx)
  /-- 42 R121 -/
  | addi (rd rs1 : RegIdx) (imm : BitVec 12)
  /-- 42 R122 -/
  | lw   (rd rs1 : RegIdx) (imm : BitVec 12)
  /-- 42 R123 -/
  | jalr (rd rs1 : RegIdx) (imm : BitVec 12)
  /-- 43 R131 -/
  | sw   (rs2 rs1 : RegIdx) (imm : BitVec 12)
  /-- 44 R137; never the halt encoding, which is `halt`. -/
  | beq  (rs1 rs2 : RegIdx) (imm : BitVec 13)
  /-- 44 R138 -/
  | bne  (rs1 rs2 : RegIdx) (imm : BitVec 13)
  /-- 44 R139: accepted by the encoder, UnknownBranchError in the core. -/
  | blt  (rs1 rs2 : RegIdx) (imm : BitVec 13)
  /-- 45 R146 -/
  | jal  (rd : RegIdx) (imm : BitVec 21)
  deriving DecidableEq, Repr

/-- What the decoder answers for a word (40 R94). -/
inductive Decoded where
  /-- The word is this instruction. -/
  | instr (i : Instr)
  /-- `UnknownInstructionError(w)` (30 R80, R81). -/
  | unknownInstruction (w : Word)
  /-- `UnknownBranchError(w)` (44 R139). -/
  | unknownBranch (w : Word)
  deriving DecidableEq, Repr

end Sys2Proof
end

