-- ==== Sys2Proof/WellFormed.lean ====
section
/-! DEFINITION. Which terms of `Instr` stand for an instruction word: a B or J immediate has bit 0 equal to 0 (30_encoding.md R65
to R67), and `beq` with every field zero is the halt encoding, not a `beq` (44_b_type.md R136, R137). -/

namespace Sys2Proof

/-- "bit 0 of the true branch offset is always 0 and is not stored" (30 R65, R66). -/
def evenOffset {w : Nat} (imm : BitVec w) : Bool := !imm.getLsbD 0

/-- The fields of the halt encoding (40 R94): both register indices and the immediate zero. -/
def haltFields (rs1 rs2 : RegIdx) (imm : BitVec 13) : Bool := rs1 == 0 && rs2 == 0 && imm == 0

def Instr.wf : Instr → Bool
  | .halt           => true
  | .haltSys _      => true
  | .add _ _ _      => true
  | .sub _ _ _      => true
  | .slt _ _ _      => true
  | .srl _ _ _      => true
  | .or _ _ _       => true
  | .and _ _ _      => true
  | .addi _ _ _     => true
  | .lw _ _ _       => true
  | .jalr _ _ _     => true
  | .sw _ _ _       => true
  | .beq rs1 rs2 imm => evenOffset imm && !haltFields rs1 rs2 imm
  | .bne _ _ imm    => evenOffset imm
  | .blt _ _ imm    => evenOffset imm
  | .jal _ imm      => evenOffset imm

end Sys2Proof
end

