-- ==== Sys2Proof/Decode.lean ====
section
/-! DEFINITION. The decoder/dispatcher of 40_decode_dispatch.md (Classify, Extract, Select), the encoding table of 00_scope.md R8,
and the encoder of the same five formats (30_encoding.md R61 to R66). -/

namespace Sys2Proof

/-- The table of 00 R8. OPC_OPIMM, OPC_SYSTEM and F3_ADDI are the document's; the other values are the RV32I ones
(PRESUMED by the spec, D1; log 4). -/
def Enc.default : Enc where
  opcOp     := 0b0110011#7
  opcOpimm  := 0b0010011#7
  opcLoad   := 0b0000011#7
  opcJalr   := 0b1100111#7
  opcStore  := 0b0100011#7
  opcBranch := 0b1100011#7
  opcJal    := 0b1101111#7
  opcSystem := 0b1110011#7
  f3AddSub  := 0b000#3
  f3Slt     := 0b010#3
  f3Srl     := 0b101#3
  f3Or      := 0b110#3
  f3And     := 0b111#3
  f7Base    := 0b0000000#7
  f7Alt     := 0b0100000#7
  f3Addi    := 0b000#3
  f3Lw      := 0b010#3
  f3Jalr    := 0b000#3
  f3Sw      := 0b010#3
  f3Beq     := 0b000#3
  f3Bne     := 0b001#3
  f3Blt     := 0b100#3

/-! ### Extract (40 R93, 30 R61 to R66) -/

def fieldOpcode (w : Word) : BitVec 7 := w.extractLsb' 0 7
def fieldRd (w : Word) : RegIdx := w.extractLsb' 7 5
def fieldFunct3 (w : Word) : BitVec 3 := w.extractLsb' 12 3
def fieldRs1 (w : Word) : RegIdx := w.extractLsb' 15 5
def fieldRs2 (w : Word) : RegIdx := w.extractLsb' 20 5
def fieldFunct7 (w : Word) : BitVec 7 := w.extractLsb' 25 7

/-- w[31:7], the bits the SYS class ignores (30 R76, R83). -/
def fieldIgnored (w : Word) : BitVec 25 := w.extractLsb' 7 25

/-- I format: w[31:20] (30 R63). -/
def immI (w : Word) : BitVec 12 := w.extractLsb' 20 12

/-- S format: w[31:25] ∥ w[11:7] (30 R64). -/
def immS (w : Word) : BitVec 12 := w.extractLsb' 25 7 ++ w.extractLsb' 7 5

/-- B format: w[31] ∥ w[7] ∥ w[30:25] ∥ w[11:8] ∥ 0 (30 R65). -/
def immB (w : Word) : BitVec 13 :=
  w.extractLsb' 31 1 ++ w.extractLsb' 7 1 ++ w.extractLsb' 25 6 ++ w.extractLsb' 8 4 ++ 0#1

/-- J format: w[31] ∥ w[19:12] ∥ w[20] ∥ w[30:21] ∥ 0 (30 R66). -/
def immJ (w : Word) : BitVec 21 :=
  w.extractLsb' 31 1 ++ w.extractLsb' 12 8 ++ w.extractLsb' 20 1 ++ w.extractLsb' 21 10 ++ 0#1

/-! ### Classify (40 R91) -/

/-- The dispatcher's classes (00 R15). -/
inductive Format where
  | R | I | S | B | J | SYS | UNKNOWN
  deriving DecidableEq, Repr

/-- 40 R91: "reads only w[6:0] and returns one of seven classes". -/
def classify (e : Enc) (w : Word) : Format :=
  if fieldOpcode w = e.opcSystem then .SYS
  else if fieldOpcode w = e.opcOp then .R
  else if fieldOpcode w = e.opcOpimm then .I
  else if fieldOpcode w = e.opcLoad then .I
  else if fieldOpcode w = e.opcJalr then .I
  else if fieldOpcode w = e.opcStore then .S
  else if fieldOpcode w = e.opcBranch then .B
  else if fieldOpcode w = e.opcJal then .J
  else .UNKNOWN

/-! ### Select (40 R94), one function per class -/

/-- 30 R71: funct3 and funct7 compared in full (D3; log 12). -/
def selectR (e : Enc) (w : Word) : Decoded :=
  if fieldFunct3 w = e.f3AddSub ∧ fieldFunct7 w = e.f7Base then .instr (.add (fieldRd w) (fieldRs1 w) (fieldRs2 w))
  else if fieldFunct3 w = e.f3AddSub ∧ fieldFunct7 w = e.f7Alt then .instr (.sub (fieldRd w) (fieldRs1 w) (fieldRs2 w))
  else if fieldFunct3 w = e.f3Slt ∧ fieldFunct7 w = e.f7Base then .instr (.slt (fieldRd w) (fieldRs1 w) (fieldRs2 w))
  else if fieldFunct3 w = e.f3Srl ∧ fieldFunct7 w = e.f7Base then .instr (.srl (fieldRd w) (fieldRs1 w) (fieldRs2 w))
  else if fieldFunct3 w = e.f3Or ∧ fieldFunct7 w = e.f7Base then .instr (.or (fieldRd w) (fieldRs1 w) (fieldRs2 w))
  else if fieldFunct3 w = e.f3And ∧ fieldFunct7 w = e.f7Base then .instr (.and (fieldRd w) (fieldRs1 w) (fieldRs2 w))
  else .unknownInstruction w

/-- 30 R72: told apart by the opcode (D4), then funct3 checked (D3). -/
def selectI (e : Enc) (w : Word) : Decoded :=
  if fieldOpcode w = e.opcOpimm ∧ fieldFunct3 w = e.f3Addi then .instr (.addi (fieldRd w) (fieldRs1 w) (immI w))
  else if fieldOpcode w = e.opcLoad ∧ fieldFunct3 w = e.f3Lw then .instr (.lw (fieldRd w) (fieldRs1 w) (immI w))
  else if fieldOpcode w = e.opcJalr ∧ fieldFunct3 w = e.f3Jalr then .instr (.jalr (fieldRd w) (fieldRs1 w) (immI w))
  else .unknownInstruction w

/-- 30 R73. -/
def selectS (e : Enc) (w : Word) : Decoded :=
  if fieldFunct3 w = e.f3Sw then .instr (.sw (fieldRs2 w) (fieldRs1 w) (immS w)) else .unknownInstruction w

/-- 30 R74: the halt test first; it requires funct3 = F3_BEQ (D5, C8; log 12). The `blt` row of the table is the one unknown
branch with a mnemonic; its meaning raises UnknownBranchError too (44 R139; log 13). -/
def selectB (e : Enc) (w : Word) : Decoded :=
  if fieldFunct3 w = e.f3Beq then
    if haltFields (fieldRs1 w) (fieldRs2 w) (immB w) then .instr .halt
    else .instr (.beq (fieldRs1 w) (fieldRs2 w) (immB w))
  else if fieldFunct3 w = e.f3Bne then .instr (.bne (fieldRs1 w) (fieldRs2 w) (immB w))
  else if fieldFunct3 w = e.f3Blt then .instr (.blt (fieldRs1 w) (fieldRs2 w) (immB w))
  else .unknownBranch w

/-- `Select(w)` of 40 R94: total, reads no architectural state. -/
def decode (e : Enc) (w : Word) : Decoded :=
  match classify e w with
  | .SYS     => .instr (.haltSys (fieldIgnored w))
  | .UNKNOWN => .unknownInstruction w
  | .R       => selectR e w
  | .I       => selectI e w
  | .S       => selectS e w
  | .B       => selectB e w
  | .J       => .instr (.jal (fieldRd w) (immJ w))

/-! ### The encoder (30 R62 to R66) -/

/-- funct7 ∥ rs2 ∥ rs1 ∥ funct3 ∥ rd ∥ opcode (30 R62). -/
def encodeR (f7 : BitVec 7) (rs2 rs1 : RegIdx) (f3 : BitVec 3) (rd : RegIdx) (opc : BitVec 7) : Word :=
  f7 ++ rs2 ++ rs1 ++ f3 ++ rd ++ opc

/-- imm[11:0] ∥ rs1 ∥ funct3 ∥ rd ∥ opcode (30 R63). -/
def encodeI (imm : BitVec 12) (rs1 : RegIdx) (f3 : BitVec 3) (rd : RegIdx) (opc : BitVec 7) : Word :=
  imm ++ rs1 ++ f3 ++ rd ++ opc

/-- imm[11:5] ∥ rs2 ∥ rs1 ∥ funct3 ∥ imm[4:0] ∥ opcode (30 R64). -/
def encodeS (imm : BitVec 12) (rs2 rs1 : RegIdx) (f3 : BitVec 3) (opc : BitVec 7) : Word :=
  imm.extractLsb' 5 7 ++ rs2 ++ rs1 ++ f3 ++ imm.extractLsb' 0 5 ++ opc

/-- imm[12] ∥ imm[10:5] ∥ rs2 ∥ rs1 ∥ funct3 ∥ imm[4:1] ∥ imm[11] ∥ opcode (30 R65). -/
def encodeB (imm : BitVec 13) (rs2 rs1 : RegIdx) (f3 : BitVec 3) (opc : BitVec 7) : Word :=
  imm.extractLsb' 12 1 ++ imm.extractLsb' 5 6 ++ rs2 ++ rs1 ++ f3 ++ imm.extractLsb' 1 4 ++ imm.extractLsb' 11 1 ++ opc

/-- imm[20] ∥ imm[10:1] ∥ imm[11] ∥ imm[19:12] ∥ rd ∥ opcode (30 R66). -/
def encodeJ (imm : BitVec 21) (rd : RegIdx) (opc : BitVec 7) : Word :=
  imm.extractLsb' 20 1 ++ imm.extractLsb' 1 10 ++ imm.extractLsb' 11 1 ++ imm.extractLsb' 12 8 ++ rd ++ opc

/-- The word of an instruction, from the same table as the decoder (40 R102, U16). -/
def encode (e : Enc) : Instr → Word
  | .halt             => encodeB 0 0 0 e.f3Beq e.opcBranch
  | .haltSys ignored  => ignored ++ e.opcSystem
  | .add rd rs1 rs2   => encodeR e.f7Base rs2 rs1 e.f3AddSub rd e.opcOp
  | .sub rd rs1 rs2   => encodeR e.f7Alt rs2 rs1 e.f3AddSub rd e.opcOp
  | .slt rd rs1 rs2   => encodeR e.f7Base rs2 rs1 e.f3Slt rd e.opcOp
  | .srl rd rs1 rs2   => encodeR e.f7Base rs2 rs1 e.f3Srl rd e.opcOp
  | .or rd rs1 rs2    => encodeR e.f7Base rs2 rs1 e.f3Or rd e.opcOp
  | .and rd rs1 rs2   => encodeR e.f7Base rs2 rs1 e.f3And rd e.opcOp
  | .addi rd rs1 imm  => encodeI imm rs1 e.f3Addi rd e.opcOpimm
  | .lw rd rs1 imm    => encodeI imm rs1 e.f3Lw rd e.opcLoad
  | .jalr rd rs1 imm  => encodeI imm rs1 e.f3Jalr rd e.opcJalr
  | .sw rs2 rs1 imm   => encodeS imm rs2 rs1 e.f3Sw e.opcStore
  | .beq rs1 rs2 imm  => encodeB imm rs2 rs1 e.f3Beq e.opcBranch
  | .bne rs1 rs2 imm  => encodeB imm rs2 rs1 e.f3Bne e.opcBranch
  | .blt rs1 rs2 imm  => encodeB imm rs2 rs1 e.f3Blt e.opcBranch
  | .jal rd imm       => encodeJ imm rd e.opcJal

/-! ### Words and bytes (log 1) -/

/-- The word whose bytes, lowest address first, are `b0 b1 b2 b3`. DESIGN CHOICE: little-endian; the spec gives no byte order and no
instruction can observe one (20 R40, D13; log 1). -/
def wordOfBytes (b0 b1 b2 b3 : Byte) : Word := b3 ++ b2 ++ b1 ++ b0

/-- Byte `j` (0 .. 3, lowest address first) of a word, in the same order. -/
def byteOfWord (w : Word) (j : Nat) : Byte := w.extractLsb' (8 * j) 8

/-- Decoding from memory bytes, lowest address first: one instruction is exactly four bytes (30 R60); `none` where fewer are
given. -/
def decodeBytes (e : Enc) : List Byte → Option Decoded
  | b0 :: b1 :: b2 :: b3 :: _ => some (decode e (wordOfBytes b0 b1 b2 b3))
  | _ => none

/-- The `nbits` low bits of `w` as an instruction word, every higher bit 0. -/
def tableWord (nbits w : Nat) : Word := BitVec.ofNat 32 (w % 2 ^ nbits)

/-- The instruction the decoder reads, under the table of 00 R8, from the word whose bits are `w` numbered as
spec/opcode_table.json numbers them; `none` where the decoder rejects the word. -/
def decodeTableWord (nbits w : Nat) : Option Instr :=
  let word := tableWord nbits w
  match decodeBytes Enc.default [byteOfWord word 0, byteOfWord word 1, byteOfWord word 2, byteOfWord word 3] with
  | some (.instr i) => some i
  | some (.unknownInstruction _) => none
  | some (.unknownBranch _) => none
  | none => none

end Sys2Proof
end

