-- ==== Sys2Proof/Machine/Defaults.lean ====
section
/-! DEFINITION. The parameter values of the machine that `State.reset` creates: the defaults the spec gives (00_scope.md R7, R8,
93_implementation_defined.md U6). -/

namespace Sys2Proof.Machine

/-- MEM_WORDS "default 32 words = 128 bytes", STEP_LIMIT "10,000 cycles" (00 R7), JALR_ALIAS `read_first` (U6), ENC the table of
00 R8. -/
def defaultConfig : Config where
  memWords  := 32
  stepLimit := 10000
  jalrAlias := .readFirst
  enc       := Enc.default

end Sys2Proof.Machine
end

