-- ==== Sys2Proof/Machine/State.lean ====
section
/-! DEFINITION. The state of the core (10_state.md R20: "The complete state of the core is ...") and its value at reset (R36). -/

namespace Sys2Proof.Machine

/-- Memory as byte cells: addresses strictly rising, no cell equal to what an unlisted address reads as, 0 (log 1, 2). The
canonical form is `Memory.wf` of Machine/Ops.lean. -/
structure Memory where
  cells : List Host.Cell
  deriving DecidableEq, Repr

/-- The causes a Faulted run state carries, under the names of 60_exceptions.md R165, with what each reports to the host. -/
inductive Cause where
  /-- `UnknownInstructionError(w)`: decode; opcode or funct3/funct7 combination not recognised. -/
  | unknownInstruction (w : Word)
  /-- `UnknownBranchError(w)`: opcode OPC_BRANCH with a funct3 that is neither `beq` nor `bne`. -/
  | unknownBranch (w : Word)
  /-- `MemoryAccessError(ea)`: `lw` or `sw` with the exact effective address outside `[0, MEM_BYTES)`. -/
  | memoryAccess (ea : Int)
  /-- `FetchFault`: at fetch with the pc, at commit with the exact next pc. -/
  | fetchFault (t : Int)
  /-- `PcRepeatGuard(pc)`: the driver's guard of 70 R200. -/
  | pcRepeatGuard (pc : Word)
  /-- `StepLimitGuard`: the driver's guard of 70 R201. -/
  | stepLimitGuard
  deriving DecidableEq, Repr

/-- `run_state` (10 R32): Halted and Faulted are terminal. -/
inductive RunState where
  | running
  | halted
  | faulted (c : Cause)
  deriving DecidableEq, Repr

structure State where
  /-- `x[0..31]` (10 R21), read and written through `State.readReg` and `State.writeReg` only. -/
  regs      : Vector Word 32
  /-- The program counter, a byte address (10 R25). -/
  pc        : Word
  /-- `mem` (10 R30), program and data. -/
  mem       : Memory
  /-- `run_state` (10 R32). -/
  runState  : RunState
  /-- `prev_pc` (10 R34), none before the first cycle. -/
  prevPc    : Option Word
  /-- `step_count` (10 R35). -/
  stepCount : Nat
  /-- The MODEL's own field: the parameters of 00 R7 and R8, which no step changes (log 3). -/
  cfg       : Config
  deriving DecidableEq, Repr

/-- No step of this machine ends in a fault of the host's interface: every fault the spec describes is a transition of run_state
into Faulted (60 R163, R165) and is a NEXT state, so there is no constructor (log 5). Nobody raises one; safe. -/
inductive Fault where
  deriving DecidableEq, Repr

/-- Why an instruction is given no meaning. -/
inductive Refusal where
  /-- Raised by an arm of exec whose instruction has no meaning yet; safe. No arm of this model raises it. -/
  | notModelled (mnemonic : String)
  /-- Raised by `jalr` with rd = rs1 != 0 in a machine configured with JALR_ALIAS = refuse, the spec's own alternative (D10, U6);
  never under the default `read_first`. Safe: "`refuse` errs toward unprovable" (log 7). -/
  | jalrLinkIsBase
  deriving DecidableEq, Repr

/-- A machine of configuration `c` right after its creation, before a program image is loaded (70 R190, R191; 10 R36): pc 0, all
registers zero, Running, prev_pc none, step_count 0, memory with nothing listed. -/
def State.fresh (c : Config) : State where
  regs      := Vector.replicate 32 0
  pc        := 0
  mem       := ⟨[]⟩
  runState  := .running
  prevPc    := none
  stepCount := 0
  cfg       := c

/-- The machine right after reset, with the spec's default parameters. -/
def State.reset : State := State.fresh defaultConfig

end Sys2Proof.Machine
end

