-- ==== Sys2Proof/Machine/Ops.lean ====
section
/-! DEFINITION. The named operations over memory, registers and the program counter: the address translator (20_memory.md R42 to
R45), the single register write primitive (10_state.md R22), the commit of the next pc (R27), taking a fault (60_exceptions.md
R163), the halt outcome (R162) and the fetch (R161). The core has no return from a fault (60 R170), so none stands here. -/

namespace Sys2Proof.Machine

/-! ### Byte cells -/

/-- What an unlisted address reads as: 0 (10 R31, D12; log 2). -/
def unlistedByte : Byte := 0

def lookupCell : List Host.Cell → Nat → Byte
  | [], _ => unlistedByte
  | c :: rest, a => if a = c.1 then c.2 else lookupCell rest a

/-- The cell list with `a` holding `b`, kept in canonical form: the value of an unlisted address removes the entry. -/
def putCell : List Host.Cell → Nat → Byte → List Host.Cell
  | [], a, b => if b = unlistedByte then [] else [(a, b)]
  | c :: rest, a, b =>
    if a < c.1 then (if b = unlistedByte then c :: rest else (a, b) :: c :: rest)
    else if a = c.1 then (if b = unlistedByte then rest else (a, b) :: rest)
    else c :: putCell rest a b

def Memory.readByte (m : Memory) (a : Nat) : Byte := lookupCell m.cells a

def Memory.writeByte (m : Memory) (a : Nat) (b : Byte) : Memory := ⟨putCell m.cells a b⟩

/-- The canonical form: addresses strictly rising, no cell that reads as an unlisted address does. -/
abbrev Memory.wf (m : Memory) : Prop :=
  m.cells.Pairwise (fun c d => c.1 < d.1) ∧ ∀ c ∈ m.cells, c.2 ≠ unlistedByte

/-- Every listed cell lies in `0 .. n - 1`. -/
abbrev Memory.within (m : Memory) (n : Nat) : Prop := ∀ c ∈ m.cells, c.1 < n

/-! ### Words of memory (10 R30, 20 R44, R47) -/

/-- `mem[k]`. -/
def Memory.readWord (m : Memory) (k : Nat) : Word :=
  wordOfBytes (m.readByte (4 * k)) (m.readByte (4 * k + 1)) (m.readByte (4 * k + 2)) (m.readByte (4 * k + 3))

/-- `mem[k] := v`. -/
def Memory.writeWord (m : Memory) (k : Nat) (v : Word) : Memory :=
  (((m.writeByte (4 * k) (byteOfWord v 0)).writeByte (4 * k + 1) (byteOfWord v 1)).writeByte (4 * k + 2)
    (byteOfWord v 2)).writeByte (4 * k + 3) (byteOfWord v 3)

/-- `MEM_BYTES = 4 * MEM_WORDS` (00 R7). -/
def memBytes (c : Config) : Nat := 4 * c.memWords

/-- The admission check of 20 R43. -/
def admits (c : Config) (ea : Int) : Bool := decide (0 ≤ ea ∧ ea < memBytes c)

/-- `index(ea) = floor(ea / 4)` of 20 R44, for an admitted `ea`. -/
def wordIndex (ea : Int) : Nat := (ea / 4).toNat

/-- `MemRead(ea, 4)` of 20 R44; `none` where it raises MemoryAccessError(ea). -/
def State.memRead (s : State) (ea : Int) : Option Word :=
  if admits s.cfg ea then some (s.mem.readWord (wordIndex ea)) else none

/-- `MemWrite(ea, 4, v)` of 20 R44; `none` where it raises MemoryAccessError(ea). -/
def State.memWrite (s : State) (ea : Int) (v : Word) : Option State :=
  if admits s.cfg ea then some { s with mem := s.mem.writeWord (wordIndex ea) v } else none

/-! ### Registers -/

/-- `x[i]` (10 R21): "slot 0 is always read as zero". -/
def State.readReg (s : State) (i : RegIdx) : Word := if i = 0 then 0 else s.regs[i.toNat]

/-- `x[i] <- v`, the single write primitive of 10 R22: a write to register 0 is silently discarded. -/
def State.writeReg (s : State) (i : RegIdx) (v : Word) : State :=
  if i = 0 then s else { s with regs := s.regs.set i.toNat v }

/-! ### The end of a cycle -/

/-- Commit of `Next(t)`, 10 R27: a `t` that is no 32-bit value ends the run with the fault the next fetch would have raised
(D6; log 9). -/
def State.commit (s : State) (t : Int) : State :=
  if inWordRange t then { s with prevPc := some s.pc, pc := trunc32 t }
  else { s with prevPc := some s.pc, pc := trunc32 t, runState := .faulted (.fetchFault t) }

/-- Taking a fault or a guard stop, 60 R163, R169: run_state becomes Faulted with the cause; registers, memory, pc and prev_pc keep
their values; no handler, no vector, nothing saved. -/
def State.raise (s : State) (c : Cause) : State := { s with runState := .faulted c }

/-- The halt outcome, 60 R162. -/
def State.halt (s : State) : State := { s with runState := .halted }

/-- "step_count is incremented once by every cycle that passes the two guards" (10 R35). -/
def State.countCycle (s : State) : State := { s with stepCount := s.stepCount + 1 }

/-! ### Fetch -/

/-- pc is a multiple of 4 below MEM_BYTES (10 R28, 60 R161). -/
def State.canFetch (s : State) : Bool := decide (s.pc.toNat % 4 = 0 ∧ s.pc.toNat < memBytes s.cfg)

/-- The word `mem[pc / 4]` (60 R161); `none` where the fetch raises FetchFault(pc) (D7, D8; log 10). -/
def State.fetch (s : State) : Option Word :=
  if s.canFetch then some (s.mem.readWord (s.pc.toNat / 4)) else none

/-- The state with `w` in the word that the next fetch reads. -/
def State.placeFetchWord (s : State) (w : Word) : State := { s with mem := s.mem.writeWord (s.pc.toNat / 4) w }

end Sys2Proof.Machine
end

