-- ==== Sys2Proof/Machine/Flags.lean ====
section
/-! DEFINITION. The core "has no status flags, condition codes or predicates" (10_state.md R29): what another machine reads from
flags, a branch here computes from two registers, the branch evaluator of 40_decode_dispatch.md R100. -/

namespace Sys2Proof.Machine

/-- The two operations of the branch evaluator; `blt` has none (44 R139). -/
inductive BranchOp where
  | beq | bne
  deriving DecidableEq, Repr

/-- `taken` of 40 R100: "equality of all 32 bits". -/
def taken : BranchOp → Word → Word → Bool
  | .beq, a, b => a == b
  | .bne, a, b => a != b

end Sys2Proof.Machine
end

