-- ==== Sys2Proof/Machine/Operands.lean ====
section
/-! DEFINITION. The operand forms: register, sign-extended immediate, base plus displacement (20_memory.md R42), and the exact next
program counters of the next-PC calculator (40_decode_dispatch.md R100). -/

namespace Sys2Proof.Machine

/-- The 12-bit immediate as an ALU operand, `sext_32` of the field (30 R67, 40 R93). -/
def immOperand (imm : BitVec 12) : Word := imm.signExtend 32

/-- `u(x[rs1]) + s(imm)`: the effective address of `lw` and `sw` and the target of `jalr`, an exact integer that is never reduced
modulo 2^32 (20 R42, D9, log 11; 42 R123). -/
def State.baseDisp (s : State) (rs1 : RegIdx) (imm : BitVec 12) : Int := (s.readReg rs1).toNat + imm.toInt

/-- `u(pc) + s(imm)`: the target of a taken branch and of `jal` (40 R100). -/
def State.pcRelative {w : Nat} (s : State) (imm : BitVec w) : Int := s.pc.toNat + imm.toInt

/-- `u(pc) + 4`: the next sequential instruction (40 R100). -/
def State.sequential (s : State) : Int := s.pc.toNat + 4

/-- The link value of `jal` and `jalr`, truncated by the write primitive (40 R100, 41 R117). -/
def State.link (s : State) : Word := trunc32 s.sequential

end Sys2Proof.Machine
end

