-- ==== Sys2Proof/Machine/BType.lean ====
section
/-! DEFINITION. The B-type executor (44_b_type.md R135): the halt encoding, beq, bne, and blt, which the core does not know. -/

namespace Sys2Proof.Machine

/-- The branch arm of `ExecB` (44 R135): no register write, no memory access. -/
def execBranch (op : BranchOp) (rs1 rs2 : RegIdx) (imm : BitVec 13) (s : State) : State :=
  s.commit (if taken op (s.readReg rs1) (s.readReg rs2) then s.pcRelative imm else s.sequential)

/-- 44 R136: "halt the machine on the cycle it is fetched, regardless of any other state". -/
def execHalt (s : State) : Host.Outcome State Fault Refusal := .next s.halt

/-- 44 R137. -/
def execBeq (rs1 rs2 : RegIdx) (imm : BitVec 13) (s : State) : Host.Outcome State Fault Refusal :=
  .next (execBranch .beq rs1 rs2 imm s)

/-- 44 R138. -/
def execBne (rs1 rs2 : RegIdx) (imm : BitVec 13) (s : State) : Host.Outcome State Fault Refusal :=
  .next (execBranch .bne rs1 rs2 imm s)

/-- 44 R139: UnknownBranchError(w), w the instruction's own word; "The core does not compare the registers and does not look at
the offset" (log 13). -/
def execBlt (rs1 rs2 : RegIdx) (imm : BitVec 13) (s : State) : Host.Outcome State Fault Refusal :=
  .next (s.raise (.unknownBranch (encode s.cfg.enc (.blt rs1 rs2 imm))))

end Sys2Proof.Machine
end

