-- ==== Sys2Proof/Machine/Alu.lean ====
section
/-! DEFINITION. The ALU: "it has no flags output and no state" (40_decode_dispatch.md R99). -/

namespace Sys2Proof.Machine

/-- The six operations of 40 R99; there is no XOR and no other shift (C6). -/
inductive AluOp where
  | add | sub | and | or | srl | slt
  deriving DecidableEq, Repr

/-- `ALU(op, a, b)` of 40 R99. -/
def alu : AluOp → Word → Word → Word
  | .add, a, b => trunc32 (a.toNat + b.toNat)
  | .sub, a, b => trunc32 (a.toNat - b.toNat)
  | .and, a, b => a &&& b
  | .or,  a, b => a ||| b
  | .srl, a, b => a >>> (b.toNat % 32)
  | .slt, a, b => if a.toInt < b.toInt then 1 else 0

end Sys2Proof.Machine
end

