-- ==== Sys2Proof/Machine/IType.lean ====
section
/-! DEFINITION. The I-type executor (42_i_type.md R120): addi, lw, jalr. -/

namespace Sys2Proof.Machine

/-- 42 R121. -/
def execAddi (rd rs1 : RegIdx) (imm : BitVec 12) (s : State) : Host.Outcome State Fault Refusal :=
  .next ((s.writeReg rd (alu .add (s.readReg rs1) (immOperand imm))).commit s.sequential)

/-- 42 R122: the word that contains the effective address, or MemoryAccessError(ea) with nothing changed. -/
def execLw (rd rs1 : RegIdx) (imm : BitVec 12) (s : State) : Host.Outcome State Fault Refusal :=
  match s.memRead (s.baseDisp rs1 imm) with
  | some v => .next ((s.writeReg rd v).commit s.sequential)
  | none   => .next (s.raise (.memoryAccess (s.baseDisp rs1 imm)))

/-- The form JALR_ALIAS is about: rd = rs1 != 0 (U6). -/
def linkIsBase (rd rs1 : RegIdx) : Bool := decide (rd = rs1 ∧ rd ≠ 0)

/-- 42 R123: rs1 is read before the link is written (D10, log 7), bit 0 of the target is not cleared (D11). -/
def execJalr (rd rs1 : RegIdx) (imm : BitVec 12) (s : State) : Host.Outcome State Fault Refusal :=
  if s.cfg.jalrAlias = .refuse ∧ linkIsBase rd rs1 then .refused .jalrLinkIsBase
  else .next ((s.writeReg rd s.link).commit (s.baseDisp rs1 imm))

end Sys2Proof.Machine
end

