-- ==== Sys2Proof/Machine/JType.lean ====
section
/-! DEFINITION. The J-type executor (45_j_type.md R145): jal. -/

namespace Sys2Proof.Machine

/-- 45 R146: the link into rd (discarded if rd = 0), then the pc-relative jump. -/
def execJal (rd : RegIdx) (imm : BitVec 21) (s : State) : Host.Outcome State Fault Refusal :=
  .next ((s.writeReg rd s.link).commit (s.pcRelative imm))

end Sys2Proof.Machine
end

