-- ==== Sys2Proof/Machine/RType.lean ====
section
/-! DEFINITION. The R-type executor (41_r_type_alu.md R110): add, sub, slt, srl, or, and. -/

namespace Sys2Proof.Machine

/-- `ExecR` of 41 R110: both operands read before the write, Next(pc + 4). -/
def execR (op : AluOp) (rd rs1 rs2 : RegIdx) (s : State) : State :=
  (s.writeReg rd (alu op (s.readReg rs1) (s.readReg rs2))).commit s.sequential

/-- 41 R111. -/
def execAdd (rd rs1 rs2 : RegIdx) (s : State) : Host.Outcome State Fault Refusal := .next (execR .add rd rs1 rs2 s)

/-- 41 R112. -/
def execSub (rd rs1 rs2 : RegIdx) (s : State) : Host.Outcome State Fault Refusal := .next (execR .sub rd rs1 rs2 s)

/-- 41 R113. -/
def execSlt (rd rs1 rs2 : RegIdx) (s : State) : Host.Outcome State Fault Refusal := .next (execR .slt rd rs1 rs2 s)

/-- 41 R114. -/
def execSrl (rd rs1 rs2 : RegIdx) (s : State) : Host.Outcome State Fault Refusal := .next (execR .srl rd rs1 rs2 s)

/-- 41 R115. -/
def execOr (rd rs1 rs2 : RegIdx) (s : State) : Host.Outcome State Fault Refusal := .next (execR .or rd rs1 rs2 s)

/-- 41 R116. -/
def execAnd (rd rs1 rs2 : RegIdx) (s : State) : Host.Outcome State Fault Refusal := .next (execR .and rd rs1 rs2 s)

end Sys2Proof.Machine
end

