-- ==== Sys2Proof/Machine/SType.lean ====
section
/-! DEFINITION. The S-type executor (43_s_type.md R130): sw. -/

namespace Sys2Proof.Machine

/-- 43 R131: the whole word that contains the effective address is replaced, or MemoryAccessError(ea) with nothing changed. -/
def execSw (rs2 rs1 : RegIdx) (imm : BitVec 12) (s : State) : Host.Outcome State Fault Refusal :=
  match s.memWrite (s.baseDisp rs1 imm) (s.readReg rs2) with
  | some s' => .next (s'.commit s.sequential)
  | none    => .next (s.raise (.memoryAccess (s.baseDisp rs1 imm)))

end Sys2Proof.Machine
end

