-- ==== Sys2Proof/Machine/System.lean ====
section
/-! DEFINITION. The system class (46_system_halt.md R150, R151): its whole repertoire is one opcode that halts. -/

namespace Sys2Proof.Machine

/-- 46 R151: "an immediate halt signal regardless of other fields". -/
def execHaltSys (_ignored : BitVec 25) (s : State) : Host.Outcome State Fault Refusal := .next s.halt

end Sys2Proof.Machine
end

