-- ==== Sys2Proof/Machine/Cycle.lean ====
section
/-! DEFINITION. One cycle of the core (60_exceptions.md R160): the guards, the fetch, the decode, the execution, in the order of
40_decode_dispatch.md R97. -/

namespace Sys2Proof.Machine

/-- The guard that stops a cycle, if one does: the step limit first, then the pc repetition (60 R160, 70 R200, R201, D14, D15;
log 8). -/
def guardStop (s : State) : Option Cause :=
  if s.cfg.stepLimit ≤ s.stepCount then some .stepLimitGuard
  else if s.prevPc = some s.pc then some (.pcRepeatGuard s.pc)
  else none

/-- The instruction the cycle executes, or the cause that ends the cycle at fetch (60 R161) or at decode (40 R94). -/
inductive Fetched where
  | instr (i : Instr)
  | fault (c : Cause)
  deriving DecidableEq, Repr

def fetchDecode (s : State) : Fetched :=
  match s.fetch with
  | none => .fault (.fetchFault s.pc.toNat)
  | some w =>
    match decode s.cfg.enc w with
    | .instr i => .instr i
    | .unknownInstruction w => .fault (.unknownInstruction w)
    | .unknownBranch w => .fault (.unknownBranch w)

/-- `Cycle()` of 60 R160, from a Running state. A guard stop is not counted, every other cycle is (10 R35). -/
def cycle (s : State) : Host.Outcome State Fault Refusal :=
  match guardStop s with
  | some c => .next (s.raise c)
  | none =>
    match fetchDecode s with
    | .fault c => .next (s.countCycle.raise c)
    | .instr i => exec i s.countCycle

/-- "Halted and Faulted are terminal: no cycle starts from them and nothing changes afterwards" (10 R32, 60 R170; log 6). -/
def cycleOrStay (s : State) : Host.Outcome State Fault Refusal :=
  match s.runState with
  | .running   => cycle s
  | .halted    => .next s
  | .faulted _ => .next s

end Sys2Proof.Machine
end

