-- ==== Sys2Proof/Machine/Step.lean ====
section
/-! DEFINITION. The step of the machine: one cycle (60_exceptions.md R160), and the host's way to place one instruction word where
the next cycle fetches. -/

namespace Sys2Proof.Machine

def step (s : State) : Host.Outcome State Fault Refusal := cycleOrStay s

/-- `s` with the instruction word whose low `nbits` bits are `w` stored at `mem[pc / 4]`, which the next cycle fetches
(60 R161). It stands for the program load of 70 R193 (log 15). -/
def State.withFetchWord (s : State) (nbits w : Nat) : State := s.placeFetchWord (tableWord nbits w)

end Sys2Proof.Machine
end

