-- ==== Sys2Proof/Machine/Load.lean ====
section
/-! DEFINITION. Program load, the host's one action before the run (70_reset_and_hazards.md R191, R193, R194): text lines of 32
characters become the first words of memory, and the machine is created in its launch state. -/

namespace Sys2Proof.Machine

/-- Why no machine is created (70 R194). -/
inductive LoadError where
  /-- Line `k` (the first line is line 0, as in R193) is not exactly 32 characters of `0`/`1`. -/
  | malformedLine (k : Nat)
  /-- `ProgramTooLargeError`: more lines than memory capacity. -/
  | programTooLarge (lines : Nat)
  deriving DecidableEq, Repr

/-- The loader's answer. -/
inductive Loaded where
  | machine (s : State)
  | error (e : LoadError)
  deriving DecidableEq, Repr

/-- The bits of a line, most significant first, after the bits already read. -/
def parseBits : List Char → Nat → Option Nat
  | [], acc => some acc
  | c :: rest, acc =>
    if c = '0' then parseBits rest (2 * acc) else if c = '1' then parseBits rest (2 * acc + 1) else none

/-- One line: "exactly 32 characters of `0`/`1`, most significant bit first" (70 R193). DESIGN CHOICE: a blank line is malformed, the
last line of an image too; the spec leaves a trailing blank line open (91_not_in_source.md N17; log 21). -/
def parseLine (line : List Char) : Option Word :=
  if line.length = 32 then (parseBits line 0).map (BitVec.ofNat 32) else none

/-- The words of an image read up to its first malformed line. -/
inductive ParsedImage where
  | words (ws : List Word)
  | malformed (k : Nat)
  deriving DecidableEq, Repr

/-- The lines from line `k` on; a trailing blank line is a line like any other, so it is malformed (DESIGN CHOICE, log 21). -/
def parseImage : Nat → List (List Char) → ParsedImage
  | _, [] => .words []
  | k, line :: rest =>
    match parseLine line with
    | none => .malformed k
    | some w =>
      match parseImage (k + 1) rest with
      | .malformed j => .malformed j
      | .words ws => .words (w :: ws)

/-- `mem[k], mem[k + 1], ...` set to the words of the list. -/
def writeImage (m : Memory) : Nat → List Word → Memory
  | _, [] => m
  | k, w :: ws => writeImage (m.writeWord k w) (k + 1) ws

/-- The launch state (70 R191, 10 R31): the image in words 0 .. n-1, `MEM_INIT` in the words past it. -/
def launch (c : Config) (memInit : Nat → Word) (image : List Word) : State :=
  { State.fresh c with
    mem := writeImage ⟨[]⟩ 0 (image ++ (List.range' image.length (c.memWords - image.length)).map memInit) }

/-- The default of `MEM_INIT`: all zero (10 R31, D12; log 2). -/
def memInitZero (_k : Nat) : Word := 0

/-- Program load (70 R193, R194): a malformed line or an image over capacity creates no machine (which is reported when both
hold is log 16). -/
def loadProgram (c : Config) (memInit : Nat → Word) (lines : List (List Char)) : Loaded :=
  match parseImage 0 lines with
  | .malformed k => .error (.malformedLine k)
  | .words ws => if ws.length ≤ c.memWords then .machine (launch c memInit ws) else .error (.programTooLarge ws.length)

end Sys2Proof.Machine
end

