-- ==== Sys2Proof/Machine/Observe.lean ====
section
/-! DEFINITION. What the host observes (70_reset_and_hazards.md R205): a trace line per cycle that ends in Next or Halt, and the
memory dump. Pure functions of the states; no rule of the core reads them (60_exceptions.md R176). -/

namespace Sys2Proof.Machine

/-- `TRACE_PC` (D18, U14): which PC a trace line prints, left open by the spec. -/
inductive TracePc where
  | current
  | next
  deriving DecidableEq, Repr

/-- The content of one trace line: a PC and the 32 registers in index order. -/
structure TraceRecord where
  pc   : Word
  regs : List Word
  deriving DecidableEq, Repr

/-- The registers a trace line lists, x0 to x31. -/
def State.regList (s : State) : List Word := (List.range 32).map fun k => s.readReg (BitVec.ofNat 5 k)

/-- The trace line of the cycle that took `s` to `s'` (60 R160): written when the cycle passed the guards and ended in Halt or in the
commit of a next pc, and in no faulting cycle (D16). In a cycle that passes the guards prev_pc was not `some pc`, so it is
`some pc` afterwards exactly when the commit of 10 R27 ran. DESIGN CHOICE: where there is no 32-bit next pc, `TRACE_PC = next` prints
the pc the cycle leaves: the halt word's own address in a halting cycle, the truncation of a next pc outside 32 bits (log 22). -/
def traceRecord (which : TracePc) (s s' : State) : Option TraceRecord :=
  if s.runState = .running ∧ guardStop s = none ∧ (s'.runState = .halted ∨ s'.prevPc = some s.pc) then
    some ⟨match which with | .current => s.pc | .next => s'.pc, s'.regList⟩
  else none

/-- At most `n` cycles from `s`: the trace lines written and the last state. -/
def runTrace (which : TracePc) : Nat → State → List TraceRecord × State
  | 0, s => ([], s)
  | n + 1, s =>
    match step s with
    | .next s' => ((traceRecord which s s').toList ++ (runTrace which n s').1, (runTrace which n s').2)
    | .fault _ => ([], s)
    | .refused _ => ([], s)

/-- The dump: every memory word with its printed address, `DUMP_BASE` plus 4 per word (R205; the base is the host's, D18). -/
def dump (base : Word) (s : State) : List (Word × Word) :=
  (List.range s.cfg.memWords).map fun k => (base + BitVec.ofNat 32 (4 * k), s.mem.readWord k)

/-! ### The text of R205 -/

def hexDigit (upper : Bool) (n : Nat) : Char :=
  if n < 10 then Char.ofNat (48 + n) else if upper then Char.ofNat (55 + n) else Char.ofNat (87 + n)

/-- Eight hexadecimal digits, most significant first. -/
def hex8 (upper : Bool) (w : Word) : List Char :=
  (List.range 8).map fun j => hexDigit upper (w.toNat / 16 ^ (7 - j) % 16)

/-- Thirty-two binary digits, most significant first. -/
def bin32 (w : Word) : List Char := (List.range 32).map fun j => if w.getMsbD j then '1' else '0'

/-- `<PC as 8 lowercase hex digits> x0:0b<32-bit binary> ... x31:0b<32-bit binary>`. -/
def traceText (r : TraceRecord) : List Char :=
  hex8 false r.pc ++ (r.regs.zipIdx.map fun (v, k) => [' ', 'x'] ++ Nat.toDigits 10 k ++ [':', '0', 'b'] ++ bin32 v).flatten

/-- `0x<8-digit uppercase hex address>:0b<32-bit binary value>`. -/
def dumpText (entry : Word × Word) : List Char :=
  ['0', 'x'] ++ hex8 true entry.1 ++ [':', '0', 'b'] ++ bin32 entry.2

/-- The literal line that precedes the dump. -/
def memoryHeading : List Char := ['M', 'e', 'm', 'o', 'r', 'y', ':']

/-- The host's whole output for a run of at most `n` cycles: the trace lines, a blank line, `Memory:`, the dump. -/
def outputText (which : TracePc) (base : Word) (n : Nat) (s : State) : List (List Char) :=
  (runTrace which n s).1.map traceText ++ [[], memoryHeading] ++ (dump base (runTrace which n s).2).map dumpText

end Sys2Proof.Machine
end

