-- ==== Sys2Proof/Safety.lean ====
section
/-! DEFINITION. What counts as a successful run, the invariant of the machine, and the vocabulary the claims use for what a step
leaves unchanged. Nothing here is read by the machine. -/

namespace Sys2Proof.Machine

/-- A run "is successful if and only if run_state = Halted" (70_reset_and_hazards.md R206). -/
def State.successful (s : State) : Bool := decide (s.runState = .halted)

/-- What every state the machine can be in satisfies. -/
structure State.Inv (s : State) : Prop where
  /-- MEM_WORDS in its range and the encoding table unambiguous (00 R7, R8). -/
  config : s.cfg.wf = true
  /-- Memory is in canonical form (log 1). -/
  memCanonical : s.mem.wf
  /-- Memory has no cell outside the address space (20 R48). -/
  memInSpace : s.mem.within (memBytes s.cfg)
  /-- Slot 0 of the register file holds zero (10 R21). -/
  zeroRegister : s.regs[0] = 0
  /-- step_count is in 0 .. STEP_LIMIT (10 R35). -/
  countInRange : s.stepCount ≤ s.cfg.stepLimit
  /-- prev_pc is none before the first cycle, and in a Running machine only then (10 R34). -/
  prevPcSet : s.runState = .running → (s.prevPc = none ↔ s.stepCount = 0)
  /-- The previous cycle's pc was one an instruction was fetched from (10 R28, R34). -/
  prevPcFetched : ∀ p, s.prevPc = some p → p.toNat % 4 = 0 ∧ p.toNat < memBytes s.cfg
  /-- A Halted machine's pc is at the halt word (44 R136, D17). -/
  haltedOnWord : s.runState = .halted → s.canFetch = true

/-! ### Vocabulary of the claims -/

/-- No register reads differently. -/
def SameRegs (s t : State) : Prop := ∀ r, t.readReg r = s.readReg r

/-- Register `rd` reads `v` (register 0 still reads zero) and no other register reads differently. -/
def WritesOnly (s t : State) (rd : RegIdx) (v : Word) : Prop :=
  t.readReg rd = (if rd = 0 then 0 else v) ∧ ∀ r, r ≠ rd → t.readReg r = s.readReg r

/-- Every byte of memory reads as before. -/
def SameMem (s t : State) : Prop := ∀ a, t.mem.readByte a = s.mem.readByte a

/-- Every byte outside the four bytes of word `k` reads as before. -/
def SameMemBut (s t : State) (k : Nat) : Prop :=
  ∀ a, a < 4 * k ∨ 4 * k + 4 ≤ a → t.mem.readByte a = s.mem.readByte a

/-- step_count and the configuration are unchanged. -/
def SameRest (s t : State) : Prop := t.stepCount = s.stepCount ∧ t.cfg = s.cfg

/-- The next pc `n` was committed as 10 R27 says. -/
def Committed (s t : State) (n : Int) : Prop :=
  t.prevPc = some s.pc ∧ t.pc = BitVec.ofInt 32 n ∧
    t.runState = if 0 ≤ n ∧ n < 2 ^ 32 then s.runState else .faulted (.fetchFault n)

/-- Nothing but run_state differs, and it is `r`. -/
def StopsAs (s t : State) (r : RunState) : Prop :=
  t.runState = r ∧ SameRegs s t ∧ SameMem s t ∧ t.pc = s.pc ∧ t.prevPc = s.prevPc ∧ SameRest s t

/-- The next cycle of `s` passes the two guards and the fetch checks (40 R97, steps 1 and 2). -/
abbrev State.Ready (s : State) : Prop :=
  s.runState = .running ∧ s.stepCount < s.cfg.stepLimit ∧ s.prevPc ≠ some s.pc ∧ s.pc.toNat % 4 = 0 ∧
    s.pc.toNat < 4 * s.cfg.memWords

/-- `i` completes in one cycle: register `rd` gets `v`, memory and every other register stay, the next pc is pc + 4. -/
def CompletesWriting (i : Instr) (s : State) (rd : RegIdx) (v : Word) : Prop :=
  ∃ t, exec i s = .next t ∧ WritesOnly s t rd v ∧ SameMem s t ∧ Committed s t (s.pc.toNat + 4) ∧ SameRest s t

/-- `i` completes in one cycle: register `rd` gets the link pc + 4, memory and every other register stay, the next pc is `n`. -/
def CompletesLinking (i : Instr) (s : State) (rd : RegIdx) (n : Int) : Prop :=
  ∃ t, exec i s = .next t ∧ WritesOnly s t rd (BitVec.ofNat 32 (s.pc.toNat + 4)) ∧ SameMem s t ∧ Committed s t n ∧ SameRest s t

/-- `i` completes in one cycle and changes nothing but the pc, whose next value is `n` (and prev_pc with it). -/
def CompletesMoving (i : Instr) (s : State) (n : Int) : Prop :=
  ∃ t, exec i s = .next t ∧ SameRegs s t ∧ SameMem s t ∧ Committed s t n ∧ SameRest s t

/-- `i` completes in one cycle: memory word `k` gets `v`, every other byte and every register stay, the next pc is pc + 4. -/
def CompletesStoring (i : Instr) (s : State) (k : Nat) (v : Word) : Prop :=
  ∃ t, exec i s = .next t ∧ t.mem.readWord k = v ∧ SameMemBut s t k ∧ SameRegs s t ∧ Committed s t (s.pc.toNat + 4) ∧ SameRest s t

/-- `i` ends its cycle by setting run_state to `r`, and changes nothing else. -/
def EndsAs (i : Instr) (s : State) (r : RunState) : Prop := ∃ t, exec i s = .next t ∧ StopsAs s t r

/-- The word `mem[pc / 4]`. -/
def State.wordAtPc (s : State) : Word := s.mem.readWord (s.pc.toNat / 4)

/-- The state in which a cycle that passed the guards executes: step_count incremented (60 R160), nothing else. -/
def State.counted (s : State) : State := { s with stepCount := s.stepCount + 1 }

/-- The next cycle of `s` executes `i`. -/
abbrev State.Runs (s : State) (i : Instr) : Prop := s.Ready ∧ decode s.cfg.enc s.wordAtPc = .instr i

/-- The exact next pc of an instruction whose cycle ends in a commit (10 R26); none where it never does: the halts and `blt`. -/
def State.nextPcOf (s : State) : Instr → Option Int
  | .halt            => none
  | .haltSys _       => none
  | .add _ _ _       => some (s.pc.toNat + 4)
  | .sub _ _ _       => some (s.pc.toNat + 4)
  | .slt _ _ _       => some (s.pc.toNat + 4)
  | .srl _ _ _       => some (s.pc.toNat + 4)
  | .or _ _ _        => some (s.pc.toNat + 4)
  | .and _ _ _       => some (s.pc.toNat + 4)
  | .addi _ _ _      => some (s.pc.toNat + 4)
  | .lw _ _ _        => some (s.pc.toNat + 4)
  | .jalr _ rs1 imm  => some ((s.readReg rs1).toNat + imm.toInt)
  | .sw _ _ _        => some (s.pc.toNat + 4)
  | .beq rs1 rs2 imm => some (if s.readReg rs1 = s.readReg rs2 then s.pc.toNat + imm.toInt else s.pc.toNat + 4)
  | .bne rs1 rs2 imm => some (if s.readReg rs1 ≠ s.readReg rs2 then s.pc.toNat + imm.toInt else s.pc.toNat + 4)
  | .blt _ _ _       => none
  | .jal _ imm       => some (s.pc.toNat + imm.toInt)

/-! ### The opcode table (30 R77, spec/opcode_table.json) -/

/-- The (mask, match) pairs of the table's rows, in the table's order. -/
def opcodeRows : List (Word × Word) :=
  [(0xFFFFFFFF, 0x00000063), (0x0000007F, 0x00000073), (0xFE00707F, 0x00000033), (0xFE00707F, 0x40000033)] ++
  [(0xFE00707F, 0x00002033), (0xFE00707F, 0x00005033), (0xFE00707F, 0x00006033), (0xFE00707F, 0x00007033)] ++
  [(0x0000707F, 0x00000013), (0x0000707F, 0x00002003), (0x0000707F, 0x00000067), (0x0000707F, 0x00002023)] ++
  [(0x0000707F, 0x00000063), (0x0000707F, 0x00001063), (0x0000707F, 0x00004063), (0x0000007F, 0x0000006F)]

/-- The row of an instruction, counted from 0 in the table's order. -/
def rowOf : Instr → Nat
  | .halt       => 0
  | .haltSys _  => 1
  | .add _ _ _  => 2
  | .sub _ _ _  => 3
  | .slt _ _ _  => 4
  | .srl _ _ _  => 5
  | .or _ _ _   => 6
  | .and _ _ _  => 7
  | .addi _ _ _ => 8
  | .lw _ _ _   => 9
  | .jalr _ _ _ => 10
  | .sw _ _ _   => 11
  | .beq _ _ _  => 12
  | .bne _ _ _  => 13
  | .blt _ _ _  => 14
  | .jal _ _    => 15

/-- "the first row whose `(w & mask) == match` holds" (30 R77). -/
def firstRow (w : Word) : Option Nat := opcodeRows.findIdx? fun r => w &&& r.1 == r.2

end Sys2Proof.Machine
end

