-- ==== Sys2Proof/Certificates/Slice0/Obligations.lean ====
section
/-! DEFINITION. The statements for the provers. Each docstring names the rule of spec/ it formalises. The vocabulary (CompletesWriting,
Committed, StopsAs, Ready, Runs, ...) is in Sys2Proof/Safety.lean. -/

open Sys2Proof Sys2Proof.Machine

/-! ### Encoding and decoding -/

/-- 40 R102, 30 R68: decoding the encoded word gives the instruction back, under every unambiguous encoding table. For `blt` this
is the model's choice, not R102's: it decodes to a constructor whose meaning is UnknownBranchError (log 13); and a word of opcode
1110011 keeps its 25 ignored bits (log 18). -/
def Obligations.DecodeOfEncodeIsTheInstruction : Prop :=
  ∀ (e : Enc) (i : Instr), e.wf = true → i.wf = true → decode e (encode e i) = .instr i

/-- 30 R83: no word of an instruction has a bit the instruction does not carry: encoding the decoded instruction gives the word
back, and what the decoder gives is well-formed. -/
def Obligations.EncodeOfDecodeIsTheWord : Prop :=
  ∀ (e : Enc) (w : Word) (i : Instr), decode e w = .instr i → i.wf = true ∧ encode e i = w

/-- 30 R77, under the table of 00 R8 (RV32I values where the document prints none: PRESUMED, log 4): the first row of the opcode
table that matches gives the instruction; a word that matches no row is UnknownBranchError when its opcode is OPC_BRANCH and
UnknownInstructionError otherwise. -/
def Obligations.FirstMatchingTableRowGivesTheInstruction : Prop :=
  ∀ w : Word,
    match decode Enc.default w with
    | .instr i => firstRow w = some (rowOf i)
    | .unknownInstruction w' => w' = w ∧ firstRow w = none ∧ w.extractLsb' 0 7 ≠ 0b1100011#7
    | .unknownBranch w' => w' = w ∧ firstRow w = none ∧ w.extractLsb' 0 7 = 0b1100011#7

/-- 30 R80, R81, with every function field compared in full (D3, log 12): an opcode none of the eight, or function codes not
listed under their opcode, are rejected by name, under every unambiguous encoding table. -/
def Obligations.UnlistedCodesAreRejectedByName : Prop :=
  ∀ (e : Enc) (w : Word), e.wf = true →
    let op := w.extractLsb' 0 7
    let f3 := w.extractLsb' 12 3
    let f7 := w.extractLsb' 25 7
    (op ∉ [e.opcOp, e.opcOpimm, e.opcLoad, e.opcJalr, e.opcStore, e.opcBranch, e.opcJal, e.opcSystem] →
      decode e w = .unknownInstruction w) ∧
    (op = e.opcOp →
      (f3, f7) ∉ [(e.f3AddSub, e.f7Base), (e.f3AddSub, e.f7Alt), (e.f3Slt, e.f7Base), (e.f3Srl, e.f7Base), (e.f3Or, e.f7Base),
        (e.f3And, e.f7Base)] → decode e w = .unknownInstruction w) ∧
    (op = e.opcOpimm → f3 ≠ e.f3Addi → decode e w = .unknownInstruction w) ∧
    (op = e.opcLoad → f3 ≠ e.f3Lw → decode e w = .unknownInstruction w) ∧
    (op = e.opcJalr → f3 ≠ e.f3Jalr → decode e w = .unknownInstruction w) ∧
    (op = e.opcStore → f3 ≠ e.f3Sw → decode e w = .unknownInstruction w) ∧
    (op = e.opcBranch → f3 ∉ [e.f3Beq, e.f3Bne, e.f3Blt] → decode e w = .unknownBranch w)

/-- 95 D-DEC, under the table of 00 R8 (log 4): words the spec writes out decode to the instruction they stand for, operands and
immediate included. -/
def Obligations.SpecWordsDecodeToTheirInstruction : Prop :=
  decode Enc.default 0x00500513 = .instr (.addi 10 0 5) ∧
  decode Enc.default 0x402081B3 = .instr (.sub 3 1 2) ∧
  decode Enc.default 0x0020D1B3 = .instr (.srl 3 1 2) ∧
  decode Enc.default 0xFFC2A303 = .instr (.lw 6 5 (toSignedBits (-4) 12)) ∧
  decode Enc.default 0xFE62AE23 = .instr (.sw 6 5 (toSignedBits (-4) 12)) ∧
  decode Enc.default 0x80208063 = .instr (.beq 1 2 (toSignedBits (-4096) 13)) ∧
  decode Enc.default 0xFE209CE3 = .instr (.bne 1 2 (toSignedBits (-8) 13)) ∧
  decode Enc.default 0xDEADBEEF = .instr (.jal 29 (toSignedBits (-150038) 21)) ∧
  decode Enc.default 0x000280E7 = .instr (.jalr 1 5 0) ∧
  decode Enc.default 0x00000063 = .instr .halt ∧
  decode Enc.default 0xFFFFFFF3 = .instr (.haltSys (BitVec.allOnes 25)) ∧
  decode Enc.default 0x0020C1B3 = .unknownInstruction 0x0020C1B3 ∧
  decode Enc.default 0x0020F463 = .unknownBranch 0x0020F463

/-- 30 R68, the codec law, with the definition of `toSignedBits` it rests on; and for the B and J formats that the decoder gathers
the bits the encoder scattered, with the dropped bit 0 appended as 0. -/
def Obligations.SignedBitsRoundTrip : Prop :=
  (∀ (v : Int) (w : Nat), w = 12 ∨ w = 13 ∨ w = 21 → -(2 ^ (w - 1)) ≤ v → v ≤ 2 ^ (w - 1) - 1 →
    ((toSignedBits v w).toNat : Int) = v % 2 ^ w ∧ fromSignedBits (toSignedBits v w) = v) ∧
  (∀ (imm : BitVec 13) (rs2 rs1 : RegIdx) (f3 : BitVec 3) (opc : BitVec 7),
    immB (encodeB imm rs2 rs1 f3 opc) = imm.extractLsb' 1 12 ++ 0#1) ∧
  ∀ (imm : BitVec 21) (rd : RegIdx) (opc : BitVec 7), immJ (encodeJ imm rd opc) = imm.extractLsb' 1 20 ++ 0#1

/-! ### The R-type executor and the ALU -/

/-- 41 R111, its encoding in the named constants of 00 R8. -/
def Obligations.AddWritesTheSumModulo32Bits : Prop :=
  ∀ rd rs1 rs2 : RegIdx,
    (∀ e : Enc, e.wf = true →
      decode e (e.f7Base ++ rs2 ++ rs1 ++ e.f3AddSub ++ rd ++ e.opcOp) = .instr (.add rd rs1 rs2)) ∧
    ∀ s : State, ∃ v : Word, v.toNat = ((s.readReg rs1).toNat + (s.readReg rs2).toNat) % 2 ^ 32 ∧
      CompletesWriting (.add rd rs1 rs2) s rd v

/-- 41 R112, its encoding in the named constants of 00 R8. -/
def Obligations.SubWritesTheDifferenceModulo32Bits : Prop :=
  ∀ rd rs1 rs2 : RegIdx,
    (∀ e : Enc, e.wf = true →
      decode e (e.f7Alt ++ rs2 ++ rs1 ++ e.f3AddSub ++ rd ++ e.opcOp) = .instr (.sub rd rs1 rs2)) ∧
    ∀ s : State, ∃ v : Word, (v.toNat : Int) = ((s.readReg rs1).toNat - (s.readReg rs2).toNat : Int) % 2 ^ 32 ∧
      CompletesWriting (.sub rd rs1 rs2) s rd v

/-- 41 R113, its encoding in the named constants of 00 R8. -/
def Obligations.SltWritesTheSignedComparison : Prop :=
  ∀ rd rs1 rs2 : RegIdx,
    (∀ e : Enc, e.wf = true →
      decode e (e.f7Base ++ rs2 ++ rs1 ++ e.f3Slt ++ rd ++ e.opcOp) = .instr (.slt rd rs1 rs2)) ∧
    ∀ s : State, ∃ v : Word,
      ((s.readReg rs1).toInt < (s.readReg rs2).toInt → v = 1) ∧ ((s.readReg rs2).toInt ≤ (s.readReg rs1).toInt → v = 0) ∧
      CompletesWriting (.slt rd rs1 rs2) s rd v

/-- 41 R114, its encoding in the named constants of 00 R8. -/
def Obligations.SrlWritesTheLogicalRightShift : Prop :=
  ∀ rd rs1 rs2 : RegIdx,
    (∀ e : Enc, e.wf = true →
      decode e (e.f7Base ++ rs2 ++ rs1 ++ e.f3Srl ++ rd ++ e.opcOp) = .instr (.srl rd rs1 rs2)) ∧
    ∀ s : State, ∃ v : Word, v.toNat = (s.readReg rs1).toNat / 2 ^ ((s.readReg rs2).toNat % 32) ∧
      CompletesWriting (.srl rd rs1 rs2) s rd v

/-- 41 R115: bit i of the result is a[i] or b[i]. -/
def Obligations.OrWritesTheBitwiseOr : Prop :=
  ∀ rd rs1 rs2 : RegIdx,
    (∀ e : Enc, e.wf = true →
      decode e (e.f7Base ++ rs2 ++ rs1 ++ e.f3Or ++ rd ++ e.opcOp) = .instr (.or rd rs1 rs2)) ∧
    ∀ s : State, ∃ v : Word,
      (∀ i < 32, v.getLsbD i = ((s.readReg rs1).getLsbD i || (s.readReg rs2).getLsbD i)) ∧
      CompletesWriting (.or rd rs1 rs2) s rd v

/-- 41 R116: bit i of the result is a[i] and b[i]. -/
def Obligations.AndWritesTheBitwiseAnd : Prop :=
  ∀ rd rs1 rs2 : RegIdx,
    (∀ e : Enc, e.wf = true →
      decode e (e.f7Base ++ rs2 ++ rs1 ++ e.f3And ++ rd ++ e.opcOp) = .instr (.and rd rs1 rs2)) ∧
    ∀ s : State, ∃ v : Word,
      (∀ i < 32, v.getLsbD i = ((s.readReg rs1).getLsbD i && (s.readReg rs2).getLsbD i)) ∧
      CompletesWriting (.and rd rs1 rs2) s rd v

/-! ### The I-type and S-type executors -/

/-- 42 R121. -/
def Obligations.AddiWritesTheSumWithTheSignedImmediate : Prop :=
  ∀ (rd rs1 : RegIdx) (imm : BitVec 12),
    (∀ e : Enc, e.wf = true → decode e (imm ++ rs1 ++ e.f3Addi ++ rd ++ e.opcOpimm) = .instr (.addi rd rs1 imm)) ∧
    ∀ s : State, ∃ v : Word, (v.toNat : Int) = ((s.readReg rs1).toNat + imm.toInt : Int) % 2 ^ 32 ∧
      CompletesWriting (.addi rd rs1 imm) s rd v

/-- 42 R122, 20 R42 to R45, the address an exact sum (the spec's decision D9, log 11): an admitted load gets the whole containing
word; any other changes nothing but run_state. -/
def Obligations.LwLoadsTheContainingWordOrFaults : Prop :=
  ∀ (rd rs1 : RegIdx) (imm : BitVec 12),
    (∀ e : Enc, e.wf = true → decode e (imm ++ rs1 ++ e.f3Lw ++ rd ++ e.opcLoad) = .instr (.lw rd rs1 imm)) ∧
    ∀ s : State,
      let ea : Int := (s.readReg rs1).toNat + imm.toInt
      if 0 ≤ ea ∧ ea < 4 * s.cfg.memWords then
        CompletesWriting (.lw rd rs1 imm) s rd (s.mem.readWord (ea / 4).toNat)
      else EndsAs (.lw rd rs1 imm) s (.faulted (.memoryAccess ea))

/-- 42 R123 (decisions D10 and D11, log 7), with JALR_ALIAS = read_first (the default) or a form it is not about: the target is
the old rs1 plus the immediate, no bit of it cleared, pc not added. -/
def Obligations.JalrLinksAndJumpsToTheOldBase : Prop :=
  ∀ (rd rs1 : RegIdx) (imm : BitVec 12),
    (∀ e : Enc, e.wf = true → decode e (imm ++ rs1 ++ e.f3Jalr ++ rd ++ e.opcJalr) = .instr (.jalr rd rs1 imm)) ∧
    ∀ s : State, s.cfg.jalrAlias = .readFirst ∨ rd ≠ rs1 ∨ rd = 0 →
      CompletesLinking (.jalr rd rs1 imm) s rd ((s.readReg rs1).toNat + imm.toInt)

/-- U6, D10 (log 7): with JALR_ALIAS = refuse, `jalr` with rd = rs1 != 0 has no meaning. -/
def Obligations.JalrAliasIsRefusedWhenConfigured : Prop :=
  ∀ (r : RegIdx) (imm : BitVec 12) (s : State), s.cfg.jalrAlias = .refuse → r ≠ 0 →
    exec (.jalr r r imm) s = .refused .jalrLinkIsBase

/-- 43 R131, 20 R42 to R45, the address an exact sum (D9, log 11): an admitted store replaces the whole containing word and no
other byte; any other changes nothing but run_state. The premise is the memory clause of the invariant InvariantIsKeptByEveryStep
states. -/
def Obligations.SwReplacesTheContainingWordOrFaults : Prop :=
  ∀ (rs2 rs1 : RegIdx) (imm : BitVec 12),
    (∀ e : Enc, e.wf = true →
      decode e (imm.extractLsb' 5 7 ++ rs2 ++ rs1 ++ e.f3Sw ++ imm.extractLsb' 0 5 ++ e.opcStore) = .instr (.sw rs2 rs1 imm)) ∧
    ∀ s : State, s.mem.wf →
      let ea : Int := (s.readReg rs1).toNat + imm.toInt
      if 0 ≤ ea ∧ ea < 4 * s.cfg.memWords then CompletesStoring (.sw rs2 rs1 imm) s (ea / 4).toNat (s.readReg rs2)
      else EndsAs (.sw rs2 rs1 imm) s (.faulted (.memoryAccess ea))

/-! ### Control transfer and halt -/

/-- 44 R137, its encoding in the named constants of 00 R8. -/
def Obligations.BeqBranchesWhenEqual : Prop :=
  ∀ (rs1 rs2 : RegIdx) (imm : BitVec 13),
    (∀ e : Enc, e.wf = true → imm.getLsbD 0 = false → ¬ (rs1 = 0 ∧ rs2 = 0 ∧ imm = 0) →
      decode e (imm.extractLsb' 12 1 ++ imm.extractLsb' 5 6 ++ rs2 ++ rs1 ++ e.f3Beq ++ imm.extractLsb' 1 4 ++
        imm.extractLsb' 11 1 ++ e.opcBranch) = .instr (.beq rs1 rs2 imm)) ∧
    ∀ s : State, CompletesMoving (.beq rs1 rs2 imm) s
      (if s.readReg rs1 = s.readReg rs2 then s.pc.toNat + imm.toInt else s.pc.toNat + 4)

/-- 44 R138, its encoding in the named constants of 00 R8. -/
def Obligations.BneBranchesWhenDifferent : Prop :=
  ∀ (rs1 rs2 : RegIdx) (imm : BitVec 13),
    (∀ e : Enc, e.wf = true → imm.getLsbD 0 = false →
      decode e (imm.extractLsb' 12 1 ++ imm.extractLsb' 5 6 ++ rs2 ++ rs1 ++ e.f3Bne ++ imm.extractLsb' 1 4 ++
        imm.extractLsb' 11 1 ++ e.opcBranch) = .instr (.bne rs1 rs2 imm)) ∧
    ∀ s : State, CompletesMoving (.bne rs1 rs2 imm) s
      (if s.readReg rs1 ≠ s.readReg rs2 then s.pc.toNat + imm.toInt else s.pc.toNat + 4)

/-- 45 R146, its encoding in the named constants of 00 R8. -/
def Obligations.JalLinksAndJumpsRelative : Prop :=
  ∀ (rd : RegIdx) (imm : BitVec 21),
    (∀ e : Enc, e.wf = true → imm.getLsbD 0 = false →
      decode e (imm.extractLsb' 20 1 ++ imm.extractLsb' 1 10 ++ imm.extractLsb' 11 1 ++ imm.extractLsb' 12 8 ++ rd ++ e.opcJal) =
        .instr (.jal rd imm)) ∧
    ∀ s : State, CompletesLinking (.jal rd imm) s rd (s.pc.toNat + imm.toInt)

/-- 44 R136 (funct3 000 required: D5, log 12; pc kept: D17, log 14; the word under the table of 00 R8, log 4): exactly the word
0x00000063 is the halt encoding, and it halts in every state. -/
def Obligations.HaltEncodingHaltsAndChangesNothingElse : Prop :=
  (∀ w : Word, decode Enc.default w = .instr .halt ↔ w = 0x00000063) ∧ ∀ s : State, EndsAs .halt s .halted

/-- 46 R151 (pc kept: D17, log 14): every word with opcode 1110011, whatever its other bits, halts in every state. -/
def Obligations.SystemOpcodeHaltsWhateverItsFields : Prop :=
  (∀ w : Word, w.extractLsb' 0 7 = 0b1110011#7 → decode Enc.default w = .instr (.haltSys (w.extractLsb' 7 25))) ∧
    ∀ (ignored : BitVec 25) (s : State), EndsAs (.haltSys ignored) s .halted

/-- 44 R139 (D24, log 13; under the table of 00 R8, log 4): the next cycle on a branch word whose funct3 is neither 000 nor 001
ends in UnknownBranchError of that word. -/
def Obligations.OtherBranchFunct3IsAnUnknownBranch : Prop :=
  ∀ s : State, s.Ready → s.cfg.enc = Enc.default → s.wordAtPc.extractLsb' 0 7 = 0b1100011#7 →
    s.wordAtPc.extractLsb' 12 3 ≠ 0b000#3 → s.wordAtPc.extractLsb' 12 3 ≠ 0b001#3 →
    ∃ t, step s = .next t ∧ StopsAs s.counted t (.faulted (.unknownBranch s.wordAtPc))

/-- 44 R139 for `blt` as an instruction of the model (D24, log 13): its own effect is the fault of its own word. -/
def Obligations.BltRaisesUnknownBranchOfItsWord : Prop :=
  ∀ (rs1 rs2 : RegIdx) (imm : BitVec 13) (s : State),
    EndsAs (.blt rs1 rs2 imm) s (.faulted (.unknownBranch (encode s.cfg.enc (.blt rs1 rs2 imm))))

/-- The label offset law (44 R137, 45 R146, 95 V7): with the byte offset L - P as its immediate, a jump or a taken branch at P
goes to L. -/
def Obligations.JumpsAndTakenBranchesReachTheirLabel : Prop :=
  ∀ (s : State) (L : Nat), L < 2 ^ 32 →
    let d : Int := L - s.pc.toNat
    (∀ rd, -(2 ^ 20) ≤ d → d ≤ 2 ^ 20 - 1 →
      ∃ t, exec (.jal rd (toSignedBits d 21)) s = .next t ∧ t.pc.toNat = L ∧ t.runState = s.runState) ∧
    (-(2 ^ 12) ≤ d → d ≤ 2 ^ 12 - 1 →
      (∀ rs1 rs2, s.readReg rs1 = s.readReg rs2 →
        ∃ t, exec (.beq rs1 rs2 (toSignedBits d 13)) s = .next t ∧ t.pc.toNat = L ∧ t.runState = s.runState) ∧
      (∀ rs1 rs2, s.readReg rs1 ≠ s.readReg rs2 →
        ∃ t, exec (.bne rs1 rs2 (toSignedBits d 13)) s = .next t ∧ t.pc.toNat = L ∧ t.runState = s.runState))

/-! ### Registers, the commit, memory -/

/-- 10 R22, 30 R82: register 0 is never written, every other write is seen, and each of the ten register-writing instructions with
rd = 0 completes, or for `lw` faults, as 41 R111 to R116, 42 R121 to R123 and 45 R146 say. Its `lw` clause has the exact address
(D9, log 11), its `jalr` clause the uncleared target (D11, log 7), and every commit is that of D6 (log 9). -/
def Obligations.WritesToRegisterZeroAreDiscarded : Prop :=
  (∀ (s : State) (i : RegIdx) (v : Word), i ≠ 0 →
    (s.writeReg i v).readReg i = v ∧ (∀ r, r ≠ i → (s.writeReg i v).readReg r = s.readReg r)) ∧
  (∀ (s : State) (v : Word), s.writeReg 0 v = s) ∧
  (∀ (s : State) (rs1 rs2 : RegIdx) (imm : BitVec 12) (off : BitVec 21),
    (∀ i ∈ [Instr.add 0 rs1 rs2, .sub 0 rs1 rs2, .slt 0 rs1 rs2, .srl 0 rs1 rs2, .or 0 rs1 rs2, .and 0 rs1 rs2, .addi 0 rs1 imm],
      CompletesMoving i s (s.pc.toNat + 4)) ∧
    CompletesMoving (.jal 0 off) s (s.pc.toNat + off.toInt) ∧
    CompletesMoving (.jalr 0 rs1 imm) s ((s.readReg rs1).toNat + imm.toInt) ∧
    (let ea : Int := (s.readReg rs1).toNat + imm.toInt
     if 0 ≤ ea ∧ ea < 4 * s.cfg.memWords then CompletesMoving (.lw 0 rs1 imm) s (s.pc.toNat + 4)
     else EndsAs (.lw 0 rs1 imm) s (.faulted (.memoryAccess ea))))

/-- 10 R27 (the spec's decision D6, log 9): the commit, and that under MEM_WORDS <= 2^29 only `jal`, a taken branch with a
negative target and `jalr` can produce a next pc that is no 32-bit value. -/
def Obligations.CommitFaultsExactlyOutside32Bits : Prop :=
  (∀ (s : State) (n : Int),
    Committed s (s.commit n) n ∧ SameRegs s (s.commit n) ∧ SameMem s (s.commit n) ∧ SameRest s (s.commit n)) ∧
  ∀ (s t : State) (i : Instr) (n : Int), s.cfg.memWords ≤ 2 ^ 29 → s.Runs i → step s = .next t →
    t.runState = .faulted (.fetchFault n) →
    (∃ rd imm, i = .jal rd imm ∧ n = s.pc.toNat + imm.toInt ∧ n < 0) ∨
    (∃ rs1 rs2 imm, i = .beq rs1 rs2 imm ∧ s.readReg rs1 = s.readReg rs2 ∧ n = s.pc.toNat + imm.toInt ∧ n < 0) ∨
    (∃ rs1 rs2 imm, i = .bne rs1 rs2 imm ∧ s.readReg rs1 ≠ s.readReg rs2 ∧ n = s.pc.toNat + imm.toInt ∧ n < 0) ∨
    (∃ rd rs1 imm, i = .jalr rd rs1 imm ∧ n = (s.readReg rs1).toNat + imm.toInt ∧ (n < 0 ∨ 2 ^ 32 ≤ n))

/-- 20 R50 (a), R45: after an admitted store, a load whose effective address lies in the stored word, aligned or not, gets the
stored value, and a load from another word gets what that word held. -/
def Obligations.LoadAfterStoreGetsTheStoredWord : Prop :=
  ∀ (s t : State) (rs2 rs1 rd b : RegIdx) (imm off : BitVec 12), s.mem.wf →
    let ea : Int := (s.readReg rs1).toNat + imm.toInt
    let ea' : Int := (s.readReg b).toNat + off.toInt
    0 ≤ ea → ea < 4 * s.cfg.memWords → 0 ≤ ea' → ea' < 4 * s.cfg.memWords → rd ≠ 0 →
    exec (.sw rs2 rs1 imm) s = .next t →
    ∃ u, exec (.lw rd b off) t = .next u ∧
      u.readReg rd = if ea' / 4 = ea / 4 then s.readReg rs2 else s.mem.readWord (ea' / 4).toNat

/-- 20 R53 (D20): a store to the word of the very next instruction is seen by its fetch: the next cycle, if it is Ready, executes
what the stored value decodes to. -/
def Obligations.StoreIsSeenByTheNextFetch : Prop :=
  ∀ (s t : State) (rs2 rs1 : RegIdx) (imm : BitVec 12) (j : Instr), s.mem.wf → s.Runs (.sw rs2 rs1 imm) →
    ((s.readReg rs1).toNat + imm.toInt : Int) / 4 = s.pc.toNat / 4 + 1 →
    decode s.cfg.enc (s.readReg rs2) = .instr j → step s = .next t → t.Ready →
    step t = exec j t.counted

/-! ### The cycle -/

/-- 60 R160 (guards and count as D14, D15, log 8): a cycle that passes the guards and the fetch checks counts itself and executes
the instruction that the word at pc decodes to. -/
def Obligations.StepRunsTheDecodedInstruction : Prop :=
  ∀ (s : State) (i : Instr), s.Ready → decode s.cfg.enc s.wordAtPc = .instr i → step s = exec i s.counted

/-- The word placed at pc is the one the next cycle executes: 60 R161, and the model's choice of log 15. -/
def Obligations.PlacedWordRunsNext : Prop :=
  ∀ (s : State) (w : Word) (i : Instr), s.Ready → s.mem.wf → decode s.cfg.enc w = .instr i →
    step (s.withFetchWord 32 w.toNat) = exec i (s.withFetchWord 32 w.toNat).counted

/-- 60 R163 at decode: a word that is no instruction ends the cycle in its error, with registers, memory, pc and prev_pc kept. -/
def Obligations.UndecodableWordFaultsPrecisely : Prop :=
  ∀ (s : State), s.Ready →
    (decode s.cfg.enc s.wordAtPc = .unknownInstruction s.wordAtPc →
      ∃ t, step s = .next t ∧ StopsAs s.counted t (.faulted (.unknownInstruction s.wordAtPc))) ∧
    (decode s.cfg.enc s.wordAtPc = .unknownBranch s.wordAtPc →
      ∃ t, step s = .next t ∧ StopsAs s.counted t (.faulted (.unknownBranch s.wordAtPc)))

/-- 60 R161 (the spec's decisions D7, D8, log 10): a Running cycle that passes the guards with a pc that is misaligned or at or
past MEM_BYTES ends in FetchFault(pc). -/
def Obligations.BadPcFaultsAtFetch : Prop :=
  ∀ s : State, s.runState = .running → s.stepCount < s.cfg.stepLimit → s.prevPc ≠ some s.pc →
    s.pc.toNat % 4 ≠ 0 ∨ 4 * s.cfg.memWords ≤ s.pc.toNat →
    ∃ t, step s = .next t ∧ StopsAs s.counted t (.faulted (.fetchFault s.pc.toNat))

/-- 70 R200: the PC-repetition guard, tested at the start of a cycle (D15, log 8). -/
def Obligations.RepeatedPcStopsBeforeFetch : Prop :=
  ∀ s : State, s.runState = .running → s.stepCount < s.cfg.stepLimit → s.prevPc = some s.pc →
    ∃ t, step s = .next t ∧ StopsAs s t (.faulted (.pcRepeatGuard s.pc))

/-- 70 R201: the step-limit guard, tested first (D14, log 8). -/
def Obligations.StepLimitStopsTheCycle : Prop :=
  ∀ s : State, s.runState = .running → s.cfg.stepLimit ≤ s.stepCount →
    ∃ t, step s = .next t ∧ StopsAs s t (.faulted .stepLimitGuard)

/-- 70 R200 (D15, log 8): a self-jump executes exactly once; the cycle after it is stopped by the guard, whatever the
instruction. -/
def Obligations.SelfJumpExecutesOnce : Prop :=
  ∀ (s t : State) (i : Instr), s.Runs i → step s = .next t → t.runState = .running → t.pc = s.pc →
    ∃ u, step t = .next u ∧ StopsAs t u
      (.faulted (if s.stepCount + 1 < s.cfg.stepLimit then .pcRepeatGuard s.pc else .stepLimitGuard))

/-- 10 R32, 60 R170: Halted and Faulted are terminal; nothing changes in any number of steps. -/
def Obligations.TerminalStatesNeverChange : Prop :=
  ∀ (n : Nat) (s : State), s.runState ≠ .running → core.run n s = .next s

/-- 40 R96, 60 R160, and the refused alternative of JALR_ALIAS (log 5, 7): totality. A step never ends in a fault of the host's
interface, and is refused only for `jalr` with rd = rs1 != 0 under JALR_ALIAS = refuse. -/
def Obligations.EveryStepAnswersExceptTheRefusedAlias : Prop :=
  ∀ s : State, (∃ t, step s = .next t) ∨
    (s.cfg.jalrAlias = .refuse ∧ ∃ r imm, r ≠ 0 ∧ s.Runs (.jalr r r imm) ∧ step s = .refused .jalrLinkIsBase)

/-- 60 R165, R168 (causes of the spec's decisions D6 to D8, D14, D15, D24 among them; log 8 to 10, 13; the exact address of
MemoryAccessError is D9, log 11): every way a Running core becomes Faulted, with the condition of each cause and what it reports,
a FetchFault at commit the exact next pc of the executed instruction. -/
def Obligations.EveryFaultHasItsCause : Prop :=
  ∀ (s t : State) (c : Cause), s.runState = .running → step s = .next t → t.runState = .faulted c →
    match c with
    | .stepLimitGuard => s.cfg.stepLimit ≤ s.stepCount
    | .pcRepeatGuard p => s.stepCount < s.cfg.stepLimit ∧ p = s.pc ∧ s.prevPc = some s.pc
    | .fetchFault n =>
      (n = s.pc.toNat ∧ (s.pc.toNat % 4 ≠ 0 ∨ 4 * s.cfg.memWords ≤ s.pc.toNat)) ∨
        ((n < 0 ∨ 2 ^ 32 ≤ n) ∧ ∃ i, s.Runs i ∧ s.nextPcOf i = some n)
    | .unknownInstruction w => s.Ready ∧ w = s.wordAtPc ∧ decode s.cfg.enc w = .unknownInstruction w
    | .unknownBranch w =>
      s.Ready ∧ w = s.wordAtPc ∧
        (decode s.cfg.enc w = .unknownBranch w ∨ ∃ rs1 rs2 imm, decode s.cfg.enc w = .instr (.blt rs1 rs2 imm))
    | .memoryAccess ea =>
      (ea < 0 ∨ 4 * s.cfg.memWords ≤ ea) ∧ ∃ r rs1 imm, (s.Runs (.lw r rs1 imm) ∨ s.Runs (.sw r rs1 imm)) ∧
        ea = (s.readReg rs1).toNat + imm.toInt

/-- 60 R162 (D5, D17; under the table of 00 R8, log 4): a Running core becomes Halted exactly in a cycle that fetches 0x00000063
or a word of opcode 1110011, and nothing but run_state and step_count changes in it. -/
def Obligations.HaltedExactlyByTheTwoHaltEncodings : Prop :=
  ∀ s t : State, s.runState = .running → s.cfg.enc = Enc.default → step s = .next t →
    (t.runState = .halted ↔ s.Ready ∧ (s.wordAtPc = 0x00000063 ∨ s.wordAtPc.extractLsb' 0 7 = 0b1110011#7)) ∧
    (t.runState = .halted → StopsAs s.counted t .halted)

/-- 60 R163: faults are precise. A step that faults leaves registers, memory, pc and prev_pc as they were, but for the FetchFault
of a committed next pc outside 32 bits (10 R27), which leaves memory as it was. -/
def Obligations.FaultsArePrecise : Prop :=
  ∀ (s t : State) (c : Cause), s.runState = .running → s.cfg.memWords ≤ 2 ^ 29 → step s = .next t → t.runState = .faulted c →
    SameMem s t ∧
    ((∃ n, c = .fetchFault n ∧ (n < 0 ∨ 2 ^ 32 ≤ n) ∧ t.prevPc = some s.pc) ∨
      (SameRegs s t ∧ t.pc = s.pc ∧ t.prevPc = s.prevPc))

/-- 10 R34, R35 (D14, D15, log 8): prev_pc and step_count after a step of a Running core: a guard stop changes neither, every
other cycle counts one, and a core that goes on has the executed pc as its prev_pc. -/
def Obligations.BookkeepingOfEveryCycle : Prop :=
  ∀ s t : State, s.runState = .running → step s = .next t →
    (t.stepCount = if s.stepCount < s.cfg.stepLimit ∧ s.prevPc ≠ some s.pc then s.stepCount + 1 else s.stepCount) ∧
    (t.prevPc = s.prevPc ∨ t.prevPc = some s.pc) ∧ (t.runState = .running → t.prevPc = some s.pc)

/-! ### Whole-machine rules -/

/-- 20 R41, 43 R130: a step changes memory only where the executed instruction is an admitted `sw`, and then only in the stored
word. -/
def Obligations.OnlySwChangesMemory : Prop :=
  ∀ (s t : State) (a : Nat), s.mem.wf → step s = .next t → t.mem.readByte a ≠ s.mem.readByte a →
    ∃ rs2 rs1 imm, s.Runs (.sw rs2 rs1 imm) ∧ ((s.readReg rs1).toNat + imm.toInt : Int) / 4 = a / 4

/-- 10 R23: a step changes what a register reads only where the executed instruction is one of the ten that write rd, the register
is its rd, and it is not register 0. -/
def Obligations.OnlyTheDestinationRegisterChanges : Prop :=
  ∀ (s t : State) (r : RegIdx), step s = .next t → t.readReg r ≠ s.readReg r →
    r ≠ 0 ∧ ∃ i, s.Runs i ∧
      ((∃ rs1 rs2, i ∈ [Instr.add r rs1 rs2, .sub r rs1 rs2, .slt r rs1 rs2, .srl r rs1 rs2, .or r rs1 rs2, .and r rs1 rs2]) ∨
        (∃ rs1 imm, i ∈ [Instr.addi r rs1 imm, .lw r rs1 imm, .jalr r rs1 imm]) ∨ ∃ imm, i = .jal r imm)

/-- The model's own field (log 3, DESIGN CHOICE): the configuration is no state of the core; no run changes it. -/
def Obligations.NoRunChangesTheConfiguration : Prop :=
  ∀ (n : Nat) (s t : State), core.run n s = .next t → t.cfg = s.cfg

/-- 20 R47, R41: memory has no side effects: what a step does depends on memory through the fetched word and, for `lw`, the loaded
word alone; two states that agree on these and on everything but memory step to states that agree on everything but memory. -/
def Obligations.StepDependsOnlyOnTheWordsItReads : Prop :=
  ∀ (s t : State) (m : Memory), (s.Ready → s.wordAtPc = m.readWord (s.pc.toNat / 4)) →
    (∀ rd rs1 imm, s.Runs (.lw rd rs1 imm) →
      let ea : Int := (s.readReg rs1).toNat + imm.toInt
      0 ≤ ea → ea < 4 * s.cfg.memWords → s.mem.readWord (ea / 4).toNat = m.readWord (ea / 4).toNat) →
    step s = .next t → ∃ m', step { s with mem := m } = .next { t with mem := m' }

/-! ### Reset, load, runs -/

/-- 10 R36, 00 R7: the state after reset with no image loaded, every parameter at its default. That unlisted memory reads zero is
the spec's decision D12 (log 2). -/
def Obligations.ResetStateIsAsTabulated : Prop :=
  (∀ r, State.reset.readReg r = 0) ∧ State.reset.pc = 0 ∧ (∀ k, State.reset.mem.readWord k = 0) ∧
    State.reset.runState = .running ∧ State.reset.prevPc = none ∧ State.reset.stepCount = 0 ∧
    State.reset.cfg.memWords = 32 ∧ State.reset.cfg.stepLimit = 10000 ∧ State.reset.cfg.jalrAlias = .readFirst

/-- The invariant holds at reset. -/
def Obligations.InvariantHoldsAtReset : Prop := State.reset.Inv

/-- The invariant is kept by every step (10 R21, R28, R34, R35, 20 R48, 00 R7; the canonical memory is the model's, log 1). -/
def Obligations.InvariantIsKeptByEveryStep : Prop :=
  ∀ s t : State, s.Inv → step s = .next t → t.Inv

/-- Every launch state of a legal configuration satisfies the invariant (70 R191). -/
def Obligations.InvariantHoldsAtEveryLaunch : Prop :=
  ∀ (c : Config) (memInit : Nat → Word) (image : List Word), c.wf = true → image.length ≤ c.memWords →
    (launch c memInit image).Inv

/-- 70 R191, R193, 10 R31: the launch state: word k of the image in mem[k], MEM_INIT past it, everything else as at reset. -/
def Obligations.LaunchPlacesTheImage : Prop :=
  ∀ (c : Config) (memInit : Nat → Word) (image : List Word), image.length ≤ c.memWords →
    (∀ k (h : k < image.length), (launch c memInit image).mem.readWord k = image[k]) ∧
    (∀ k, image.length ≤ k → k < c.memWords → (launch c memInit image).mem.readWord k = memInit k) ∧
    (∀ r, (launch c memInit image).readReg r = 0) ∧ (launch c memInit image).pc = 0 ∧
    (launch c memInit image).runState = .running ∧ (launch c memInit image).prevPc = none ∧
    (launch c memInit image).stepCount = 0 ∧ (launch c memInit image).cfg = c

/-- 70 R193: a line is read exactly when it is 32 characters of `0`/`1`, and character j gives bit 31 - j. -/
def Obligations.LineCharactersAreTheBitsOfTheWord : Prop :=
  ∀ (l : List Char) (w : Word),
    parseLine l = some w ↔ l.length = 32 ∧ ∀ j < 32, l[j]? = some (if w.getLsbD (31 - j) then '1' else '0')

/-- 70 R194: loading aborts, and creates no machine, exactly when some line is malformed or there are more lines than words of
memory; otherwise the machine is the launch state of the lines' words. The model's choices in it: a blank line, the last one
too, is malformed (N17, log 21); an empty image is accepted (N17, log 16). -/
def Obligations.LoadAbortsExactlyOnBadLinesOrSize : Prop :=
  ∀ (c : Config) (memInit : Nat → Word) (lines : List (List Char)),
    ((∃ e, loadProgram c memInit lines = .error e) ↔ (∃ l ∈ lines, parseLine l = none) ∨ c.memWords < lines.length) ∧
    ∀ s, loadProgram c memInit lines = .machine s →
      ∃ image : List Word, image.map some = lines.map parseLine ∧ s = launch c memInit image

/-- 10 R21, 95 V6: register 0 reads as 0 after any number of cycles, and so does the slot behind it. -/
def Obligations.RegisterZeroIsZeroAfterAnyRun : Prop :=
  ∀ (n : Nat) (s t : State), s.regs[(0 : Fin 32)] = 0 → core.run n s = .next t → t.regs[(0 : Fin 32)] = 0 ∧ t.readReg 0 = 0

/-- 70 R201 (D14, log 8): the step limit "bounds total execution regardless of loop shape": whatever the program, a machine under
JALR_ALIAS = read_first (a refused `jalr` has no next state, log 7) has left Running after at most STEP_LIMIT - step_count + 1
steps, and stays where it is. -/
def Obligations.EveryRunEndsWithinTheStepLimit : Prop :=
  ∀ s : State, s.cfg.jalrAlias = .readFirst →
    ∃ t, t.runState ≠ .running ∧ ∀ n, s.cfg.stepLimit - s.stepCount + 1 ≤ n → core.run n s = .next t

/-- 60 R160, 70 R205: a run that is still Running after n steps has written exactly n trace lines, and `runTrace` ends where the
run does. -/
def Obligations.OneTraceLinePerCompletedCycle : Prop :=
  ∀ (which : TracePc) (n : Nat) (s t : State), core.run n s = .next t → t.runState = .running →
    (runTrace which n s).1.length = n ∧ (runTrace which n s).2 = t

/-- 70 R205, 60 R160 (no line in a faulting cycle: D16; which PC: D18; log 14, 17): a step writes a trace line exactly when it
ends in Next (the commit of a next pc, even one that faults) or in Halt, and the line lists the registers after it. That
TRACE_PC = next prints the kept pc in a halting cycle and the truncation of a next pc outside 32 bits is the model's choice (log
22). -/
def Obligations.TraceLineExactlyOnNextOrHalt : Prop :=
  ∀ s t : State, s.runState = .running → step s = .next t →
    let ended := t.runState = .running ∨ t.runState = .halted ∨
      ∃ n, t.runState = .faulted (.fetchFault n) ∧ (n < 0 ∨ 2 ^ 32 ≤ n)
    (ended → ∀ which, ∃ pc, traceRecord which s t = some ⟨pc, t.regList⟩ ∧
      pc = match which with | .current => s.pc | .next => t.pc) ∧
    (¬ ended → ∀ which, traceRecord which s t = none)
end

