-- ==== Sys2Proof/Laws/Encoding.lean ====
section
/-! SUPPORT. The bits of the five formats (30_encoding.md R61 to R66): what each field extractor reads from each encoded word, and that
a word is put together again from its fields. -/

namespace Sys2Proof

variable (w : Word) (f7 : BitVec 7) (rs2 rs1 rd : RegIdx) (f3 : BitVec 3) (opc : BitVec 7) (imm : BitVec 12)

/-! ### R format (30 R62) -/

@[simp] theorem fieldOpcode_encodeR : fieldOpcode (encodeR f7 rs2 rs1 f3 rd opc) = opc := by
  apply BitVec.eq_of_getLsbD_eq
  intro i hi
  simp only [fieldOpcode, encodeR, BitVec.getLsbD_append, BitVec.getLsbD_extractLsb']
  interval_cases i <;> simp

@[simp] theorem fieldRd_encodeR : fieldRd (encodeR f7 rs2 rs1 f3 rd opc) = rd := by
  apply BitVec.eq_of_getLsbD_eq
  intro i hi
  simp only [fieldRd, encodeR, BitVec.getLsbD_append, BitVec.getLsbD_extractLsb']
  interval_cases i <;> simp

@[simp] theorem fieldFunct3_encodeR : fieldFunct3 (encodeR f7 rs2 rs1 f3 rd opc) = f3 := by
  apply BitVec.eq_of_getLsbD_eq
  intro i hi
  simp only [fieldFunct3, encodeR, BitVec.getLsbD_append, BitVec.getLsbD_extractLsb']
  interval_cases i <;> simp

@[simp] theorem fieldRs1_encodeR : fieldRs1 (encodeR f7 rs2 rs1 f3 rd opc) = rs1 := by
  apply BitVec.eq_of_getLsbD_eq
  intro i hi
  simp only [fieldRs1, encodeR, BitVec.getLsbD_append, BitVec.getLsbD_extractLsb']
  interval_cases i <;> simp

@[simp] theorem fieldRs2_encodeR : fieldRs2 (encodeR f7 rs2 rs1 f3 rd opc) = rs2 := by
  apply BitVec.eq_of_getLsbD_eq
  intro i hi
  simp only [fieldRs2, encodeR, BitVec.getLsbD_append, BitVec.getLsbD_extractLsb']
  interval_cases i <;> simp

@[simp] theorem fieldFunct7_encodeR : fieldFunct7 (encodeR f7 rs2 rs1 f3 rd opc) = f7 := by
  apply BitVec.eq_of_getLsbD_eq
  intro i hi
  simp only [fieldFunct7, encodeR, BitVec.getLsbD_append, BitVec.getLsbD_extractLsb']
  interval_cases i <;> simp

theorem encodeR_fields : encodeR (fieldFunct7 w) (fieldRs2 w) (fieldRs1 w) (fieldFunct3 w) (fieldRd w) (fieldOpcode w) = w := by
  apply BitVec.eq_of_getLsbD_eq
  intro i hi
  simp only [encodeR, fieldFunct7, fieldRs2, fieldRs1, fieldFunct3, fieldRd, fieldOpcode, BitVec.getLsbD_append, BitVec.getLsbD_extractLsb']
  interval_cases i <;> simp

/-! ### I format (30 R63) -/

@[simp] theorem fieldOpcode_encodeI : fieldOpcode (encodeI imm rs1 f3 rd opc) = opc := by
  apply BitVec.eq_of_getLsbD_eq
  intro i hi
  simp only [fieldOpcode, encodeI, BitVec.getLsbD_append, BitVec.getLsbD_extractLsb']
  interval_cases i <;> simp

@[simp] theorem fieldRd_encodeI : fieldRd (encodeI imm rs1 f3 rd opc) = rd := by
  apply BitVec.eq_of_getLsbD_eq
  intro i hi
  simp only [fieldRd, encodeI, BitVec.getLsbD_append, BitVec.getLsbD_extractLsb']
  interval_cases i <;> simp

@[simp] theorem fieldFunct3_encodeI : fieldFunct3 (encodeI imm rs1 f3 rd opc) = f3 := by
  apply BitVec.eq_of_getLsbD_eq
  intro i hi
  simp only [fieldFunct3, encodeI, BitVec.getLsbD_append, BitVec.getLsbD_extractLsb']
  interval_cases i <;> simp

@[simp] theorem fieldRs1_encodeI : fieldRs1 (encodeI imm rs1 f3 rd opc) = rs1 := by
  apply BitVec.eq_of_getLsbD_eq
  intro i hi
  simp only [fieldRs1, encodeI, BitVec.getLsbD_append, BitVec.getLsbD_extractLsb']
  interval_cases i <;> simp

@[simp] theorem immI_encodeI : immI (encodeI imm rs1 f3 rd opc) = imm := by
  apply BitVec.eq_of_getLsbD_eq
  intro i hi
  simp only [immI, encodeI, BitVec.getLsbD_append, BitVec.getLsbD_extractLsb']
  interval_cases i <;> simp

theorem encodeI_fields : encodeI (immI w) (fieldRs1 w) (fieldFunct3 w) (fieldRd w) (fieldOpcode w) = w := by
  apply BitVec.eq_of_getLsbD_eq
  intro i hi
  simp only [encodeI, immI, fieldRs1, fieldFunct3, fieldRd, fieldOpcode, BitVec.getLsbD_append, BitVec.getLsbD_extractLsb']
  interval_cases i <;> simp

/-! ### S format (30 R64) -/

@[simp] theorem fieldOpcode_encodeS : fieldOpcode (encodeS imm rs2 rs1 f3 opc) = opc := by
  apply BitVec.eq_of_getLsbD_eq
  intro i hi
  simp only [fieldOpcode, encodeS, BitVec.getLsbD_append, BitVec.getLsbD_extractLsb']
  interval_cases i <;> simp

@[simp] theorem fieldFunct3_encodeS : fieldFunct3 (encodeS imm rs2 rs1 f3 opc) = f3 := by
  apply BitVec.eq_of_getLsbD_eq
  intro i hi
  simp only [fieldFunct3, encodeS, BitVec.getLsbD_append, BitVec.getLsbD_extractLsb']
  interval_cases i <;> simp

@[simp] theorem fieldRs1_encodeS : fieldRs1 (encodeS imm rs2 rs1 f3 opc) = rs1 := by
  apply BitVec.eq_of_getLsbD_eq
  intro i hi
  simp only [fieldRs1, encodeS, BitVec.getLsbD_append, BitVec.getLsbD_extractLsb']
  interval_cases i <;> simp

@[simp] theorem fieldRs2_encodeS : fieldRs2 (encodeS imm rs2 rs1 f3 opc) = rs2 := by
  apply BitVec.eq_of_getLsbD_eq
  intro i hi
  simp only [fieldRs2, encodeS, BitVec.getLsbD_append, BitVec.getLsbD_extractLsb']
  interval_cases i <;> simp

@[simp] theorem immS_encodeS : immS (encodeS imm rs2 rs1 f3 opc) = imm := by
  apply BitVec.eq_of_getLsbD_eq
  intro i hi
  simp only [immS, encodeS, BitVec.getLsbD_append, BitVec.getLsbD_extractLsb']
  interval_cases i <;> simp

theorem encodeS_fields : encodeS (immS w) (fieldRs2 w) (fieldRs1 w) (fieldFunct3 w) (fieldOpcode w) = w := by
  apply BitVec.eq_of_getLsbD_eq
  intro i hi
  simp only [encodeS, immS, fieldRs2, fieldRs1, fieldFunct3, fieldOpcode, BitVec.getLsbD_append, BitVec.getLsbD_extractLsb']
  interval_cases i <;> simp

/-! ### B format (30 R65) -/

@[simp] theorem fieldOpcode_encodeB (off : BitVec 13) : fieldOpcode (encodeB off rs2 rs1 f3 opc) = opc := by
  apply BitVec.eq_of_getLsbD_eq
  intro i hi
  simp only [fieldOpcode, encodeB, BitVec.getLsbD_append, BitVec.getLsbD_extractLsb']
  interval_cases i <;> simp

@[simp] theorem fieldFunct3_encodeB (off : BitVec 13) : fieldFunct3 (encodeB off rs2 rs1 f3 opc) = f3 := by
  apply BitVec.eq_of_getLsbD_eq
  intro i hi
  simp only [fieldFunct3, encodeB, BitVec.getLsbD_append, BitVec.getLsbD_extractLsb']
  interval_cases i <;> simp

@[simp] theorem fieldRs1_encodeB (off : BitVec 13) : fieldRs1 (encodeB off rs2 rs1 f3 opc) = rs1 := by
  apply BitVec.eq_of_getLsbD_eq
  intro i hi
  simp only [fieldRs1, encodeB, BitVec.getLsbD_append, BitVec.getLsbD_extractLsb']
  interval_cases i <;> simp

@[simp] theorem fieldRs2_encodeB (off : BitVec 13) : fieldRs2 (encodeB off rs2 rs1 f3 opc) = rs2 := by
  apply BitVec.eq_of_getLsbD_eq
  intro i hi
  simp only [fieldRs2, encodeB, BitVec.getLsbD_append, BitVec.getLsbD_extractLsb']
  interval_cases i <;> simp

/-- The encoder drops bit 0 of the offset and the decoder appends a 0. -/
theorem immB_encodeB (off : BitVec 13) (h : off.getLsbD 0 = false) : immB (encodeB off rs2 rs1 f3 opc) = off := by
  apply BitVec.eq_of_getLsbD_eq
  intro i hi
  simp only [immB, encodeB, BitVec.getLsbD_append, BitVec.getLsbD_extractLsb']
  interval_cases i
  · simpa using h
  all_goals simp

theorem encodeB_fields : encodeB (immB w) (fieldRs2 w) (fieldRs1 w) (fieldFunct3 w) (fieldOpcode w) = w := by
  apply BitVec.eq_of_getLsbD_eq
  intro i hi
  simp only [encodeB, immB, fieldRs2, fieldRs1, fieldFunct3, fieldOpcode, BitVec.getLsbD_append, BitVec.getLsbD_extractLsb']
  interval_cases i <;> simp

/-! ### J format (30 R66) -/

@[simp] theorem fieldOpcode_encodeJ (off : BitVec 21) : fieldOpcode (encodeJ off rd opc) = opc := by
  apply BitVec.eq_of_getLsbD_eq
  intro i hi
  simp only [fieldOpcode, encodeJ, BitVec.getLsbD_append, BitVec.getLsbD_extractLsb']
  interval_cases i <;> simp

@[simp] theorem fieldRd_encodeJ (off : BitVec 21) : fieldRd (encodeJ off rd opc) = rd := by
  apply BitVec.eq_of_getLsbD_eq
  intro i hi
  simp only [fieldRd, encodeJ, BitVec.getLsbD_append, BitVec.getLsbD_extractLsb']
  interval_cases i <;> simp

/-- The encoder drops bit 0 of the offset and the decoder appends a 0. -/
theorem immJ_encodeJ (off : BitVec 21) (h : off.getLsbD 0 = false) : immJ (encodeJ off rd opc) = off := by
  apply BitVec.eq_of_getLsbD_eq
  intro i hi
  simp only [immJ, encodeJ, BitVec.getLsbD_append, BitVec.getLsbD_extractLsb']
  interval_cases i
  · simpa using h
  all_goals simp

theorem encodeJ_fields : encodeJ (immJ w) (fieldRd w) (fieldOpcode w) = w := by
  apply BitVec.eq_of_getLsbD_eq
  intro i hi
  simp only [encodeJ, immJ, fieldRd, fieldOpcode, BitVec.getLsbD_append, BitVec.getLsbD_extractLsb']
  interval_cases i <;> simp

/-! ### SYS class (30 R76) and the even offsets -/

@[simp] theorem fieldOpcode_append (ig : BitVec 25) : fieldOpcode (ig ++ opc) = opc := by
  apply BitVec.eq_of_getLsbD_eq
  intro i hi
  simp only [fieldOpcode, BitVec.getLsbD_append, BitVec.getLsbD_extractLsb']
  interval_cases i <;> simp

@[simp] theorem fieldIgnored_append (ig : BitVec 25) : fieldIgnored (ig ++ opc) = ig := by
  apply BitVec.eq_of_getLsbD_eq
  intro i hi
  simp only [fieldIgnored, BitVec.getLsbD_append, BitVec.getLsbD_extractLsb']
  interval_cases i <;> simp

theorem ignored_append_opcode : (fieldIgnored w ++ fieldOpcode w : Word) = w := by
  apply BitVec.eq_of_getLsbD_eq
  intro i hi
  simp only [fieldIgnored, fieldOpcode, BitVec.getLsbD_append, BitVec.getLsbD_extractLsb']
  interval_cases i <;> simp

theorem evenOffset_iff {n : Nat} (off : BitVec n) : evenOffset off = true ↔ off.getLsbD 0 = false := by
  simp [evenOffset]

@[simp] theorem evenOffset_immB : evenOffset (immB w) = true := by
  rw [evenOffset_iff]
  simp only [immB, BitVec.getLsbD_append]
  simp

@[simp] theorem evenOffset_immJ : evenOffset (immJ w) = true := by
  rw [evenOffset_iff]
  simp only [immJ, BitVec.getLsbD_append]
  simp

end Sys2Proof
end

