-- ==== Sys2Proof/Laws/Decode.lean ====
section
/-! SUPPORT. What the dispatcher's class says about the opcode (40_decode_dispatch.md R91), and what the decoder's error answers
report (R94). -/

namespace Sys2Proof

/-- The opcode behind each class. -/
theorem classify_opcode (e : Enc) (w : Word) :
    match classify e w with
    | .SYS => fieldOpcode w = e.opcSystem
    | .R => fieldOpcode w = e.opcOp
    | .I => fieldOpcode w = e.opcOpimm ∨ fieldOpcode w = e.opcLoad ∨ fieldOpcode w = e.opcJalr
    | .S => fieldOpcode w = e.opcStore
    | .B => fieldOpcode w = e.opcBranch
    | .J => fieldOpcode w = e.opcJal
    | .UNKNOWN => fieldOpcode w ∉ [e.opcOp, e.opcOpimm, e.opcLoad, e.opcJalr, e.opcStore, e.opcBranch, e.opcJal, e.opcSystem] := by
  cases h : classify e w <;> unfold classify at h <;> repeat' split at h
  all_goals first | cases h; done | simp_all

/-- An UnknownInstructionError reports the word itself. -/
theorem decode_unknownInstruction {e : Enc} {w w' : Word} (h : decode e w = .unknownInstruction w') : w' = w := by
  simp only [decode, selectR, selectI, selectS, selectB] at h
  repeat' split at h
  all_goals cases h
  all_goals rfl

/-- An UnknownBranchError reports the word itself. -/
theorem decode_unknownBranch {e : Enc} {w w' : Word} (h : decode e w = .unknownBranch w') : w' = w := by
  simp only [decode, selectR, selectI, selectS, selectB] at h
  repeat' split at h
  all_goals cases h
  all_goals rfl

end Sys2Proof
end

