-- ==== Sys2Proof/Laws/Memory.lean ====
section
/-! SUPPORT. The laws of memory: a read after a write, and that every memory operation keeps the canonical form and the bounds. -/

namespace Sys2Proof.Machine

/-! ### Cells -/

/-- An address below every listed one reads as an unlisted address does. -/
theorem lookupCell_of_lt {l : List Host.Cell} {a : Nat} (h : ∀ c ∈ l, a < c.1) : lookupCell l a = unlistedByte := by
  induction l with
  | nil => rfl
  | cons c rest ih =>
    have hc : a < c.1 := h c (by simp)
    rw [lookupCell, if_neg (by omega)]
    exact ih fun d hd => h d (by simp [hd])

/-- An address that `putCell` lists is the one written or was listed before. -/
theorem mem_putCell {l : List Host.Cell} {a : Nat} {b : Byte} {c : Host.Cell} (h : c ∈ putCell l a b) :
    (c = (a, b) ∧ b ≠ unlistedByte) ∨ c ∈ l := by
  induction l with
  | nil => grind [putCell]
  | cons d rest ih => grind [putCell]

theorem lookupCell_putCell {l : List Host.Cell} (hl : l.Pairwise fun c d => c.1 < d.1) (a a' : Nat) (b : Byte) :
    lookupCell (putCell l a b) a' = if a' = a then b else lookupCell l a' := by
  induction l with
  | nil => grind [putCell, lookupCell]
  | cons c rest ih =>
    obtain ⟨hc, hrest⟩ := List.pairwise_cons.mp hl
    have below : ∀ x, x ≤ c.1 → lookupCell rest x = unlistedByte := fun x hx =>
      lookupCell_of_lt fun d hd => by have := hc d hd; omega
    have := ih hrest
    unfold putCell
    grind [lookupCell]

theorem putCell_pairwise {l : List Host.Cell} (hl : l.Pairwise fun c d => c.1 < d.1) (a : Nat) (b : Byte) :
    (putCell l a b).Pairwise fun c d => c.1 < d.1 := by
  induction l with
  | nil => unfold putCell; split <;> simp
  | cons c rest ih =>
    obtain ⟨hc, hrest⟩ := List.pairwise_cons.mp hl
    unfold putCell
    split
    · split
      · exact hl
      · refine List.pairwise_cons.mpr ⟨fun d hd => ?_, hl⟩
        rcases List.mem_cons.mp hd with rfl | hd
        · assumption
        · have := hc d hd; show a < d.1; omega
    · split
      · split
        · exact hrest
        · refine List.pairwise_cons.mpr ⟨fun d hd => ?_, hrest⟩
          have := hc d hd; show a < d.1; omega
      · refine List.pairwise_cons.mpr ⟨fun d hd => ?_, ih hrest⟩
        rcases mem_putCell hd with ⟨rfl, -⟩ | hd
        · show c.1 < a; omega
        · exact hc d hd

/-! ### Bytes -/

@[simp] theorem Memory.readByte_empty (a : Nat) : (Memory.mk []).readByte a = 0 := rfl

theorem Memory.wf_empty : (Memory.mk []).wf := by constructor <;> simp

/-- The whole effect of a byte write. -/
theorem Memory.readByte_writeByte {m : Memory} (h : m.wf) (a a' : Nat) (b : Byte) :
    (m.writeByte a b).readByte a' = if a' = a then b else m.readByte a' :=
  lookupCell_putCell h.1 a a' b

theorem Memory.wf_writeByte {m : Memory} (h : m.wf) (a : Nat) (b : Byte) : (m.writeByte a b).wf := by
  refine ⟨putCell_pairwise h.1 a b, fun c hc => ?_⟩
  rcases mem_putCell hc with ⟨rfl, hb⟩ | hc
  · exact hb
  · exact h.2 c hc

theorem Memory.within_writeByte {m : Memory} {n : Nat} (h : m.within n) {a : Nat} (ha : a < n) (b : Byte) :
    (m.writeByte a b).within n := by
  intro c hc
  rcases mem_putCell hc with ⟨rfl, -⟩ | hc
  · exact ha
  · exact h c hc

/-- Two memories in canonical form that read alike are the same memory. -/
theorem Memory.ext_of_readByte {m m' : Memory} (h : m.wf) (h' : m'.wf) (hr : ∀ a, m.readByte a = m'.readByte a) : m = m' := by
  suffices H : ∀ l l' : List Host.Cell, (Memory.mk l).wf → (Memory.mk l').wf →
      (∀ a, lookupCell l a = lookupCell l' a) → l = l' by
    cases m; cases m'
    exact congrArg Memory.mk (H _ _ h h' hr)
  intro l
  induction l with
  | nil =>
    intro l' _ h' hr
    cases l' with
    | nil => rfl
    | cons d rest' =>
      have := hr d.1
      rw [lookupCell, lookupCell, if_pos rfl] at this
      exact absurd this.symm (h'.2 d (by simp))
  | cons c rest ih =>
    intro l' h h' hr
    obtain ⟨hc, hrest⟩ := List.pairwise_cons.mp h.1
    cases l' with
    | nil =>
      have := hr c.1
      rw [lookupCell, lookupCell, if_pos rfl] at this
      exact absurd this (h.2 c (by simp))
    | cons d rest' =>
      obtain ⟨hd, hrest'⟩ := List.pairwise_cons.mp h'.1
      have low : ∀ x, x ≤ c.1 → lookupCell rest x = unlistedByte := fun x hx =>
        lookupCell_of_lt fun e he => by have := hc e he; omega
      have low' : ∀ x, x ≤ d.1 → lookupCell rest' x = unlistedByte := fun x hx =>
        lookupCell_of_lt fun e he => by have := hd e he; omega
      have hcv := h.2 c (by simp)
      have hdv := h'.2 d (by simp)
      have key : c.1 = d.1 := by
        have h1 := hr c.1
        have h2 := hr d.1
        simp only [lookupCell] at h1 h2
        rcases Nat.lt_trichotomy c.1 d.1 with hlt | heq | hgt
        · rw [if_pos trivial, if_neg (by omega), low' _ (by omega)] at h1; exact absurd h1 hcv
        · exact heq
        · rw [if_neg (by omega), if_pos trivial, low _ (by omega)] at h2; exact absurd h2.symm hdv
      have hv : c.2 = d.2 := by
        have h1 := hr c.1
        simpa [lookupCell, key] using h1
      have hrr : ∀ a, lookupCell rest a = lookupCell rest' a := fun a => by
        have h1 := hr a
        by_cases ha : a = c.1
        · rw [low a (by omega), low' a (by omega)]
        · simpa [lookupCell, ha, key ▸ ha] using h1
      rw [ih rest' ⟨hrest, fun e he => h.2 e (by simp [he])⟩ ⟨hrest', fun e he => h'.2 e (by simp [he])⟩ hrr,
        show c = d from Prod.ext key hv]

/-! ### Words -/

/-- The four bytes of a word put together are the word (log 1). -/
theorem wordOfBytes_byteOfWord (w : Word) :
    wordOfBytes (byteOfWord w 0) (byteOfWord w 1) (byteOfWord w 2) (byteOfWord w 3) = w := by
  apply BitVec.eq_of_getLsbD_eq
  intro i hi
  simp only [wordOfBytes, byteOfWord, BitVec.getLsbD_append, BitVec.getLsbD_extractLsb']
  rcases Nat.lt_or_ge i 8 with h | h
  · simp [h]
  rcases Nat.lt_or_ge i 16 with h2 | h2
  · simp [show ¬ i < 8 by omega, show i - 8 < 8 by omega, show 8 + (i - 8) = i by omega]
  rcases Nat.lt_or_ge i 24 with h3 | h3
  · simp [show ¬ i < 8 by omega, show ¬ i - 8 < 8 by omega, show i - 8 - 8 < 8 by omega, show 16 + (i - 8 - 8) = i by omega]
  · simp [show ¬ i < 8 by omega, show ¬ i - 8 < 8 by omega, show ¬ i - 8 - 8 < 8 by omega, show i - 8 - 8 - 8 < 8 by omega,
      show 24 + (i - 8 - 8 - 8) = i by omega]

theorem Memory.wf_writeWord {m : Memory} (h : m.wf) (k : Nat) (v : Word) : (m.writeWord k v).wf :=
  Memory.wf_writeByte (Memory.wf_writeByte (Memory.wf_writeByte (Memory.wf_writeByte h _ _) _ _) _ _) _ _

theorem Memory.within_writeWord {m : Memory} {n : Nat} (h : m.within (4 * n)) {k : Nat} (hk : k < n) (v : Word) :
    (m.writeWord k v).within (4 * n) :=
  Memory.within_writeByte (Memory.within_writeByte (Memory.within_writeByte (Memory.within_writeByte h (by omega) _) (by omega) _)
    (by omega) _) (by omega) _

/-- The whole effect of a word write on bytes: the word's four bytes, and no other. -/
theorem Memory.readByte_writeWord {m : Memory} (h : m.wf) (k a : Nat) (v : Word) :
    (m.writeWord k v).readByte a = if a / 4 = k then byteOfWord v (a % 4) else m.readByte a := by
  have h1 := Memory.wf_writeByte h (4 * k) (byteOfWord v 0)
  have h2 := Memory.wf_writeByte h1 (4 * k + 1) (byteOfWord v 1)
  have h3 := Memory.wf_writeByte h2 (4 * k + 2) (byteOfWord v 2)
  unfold Memory.writeWord
  rw [Memory.readByte_writeByte h3, Memory.readByte_writeByte h2, Memory.readByte_writeByte h1, Memory.readByte_writeByte h]
  by_cases hk : a / 4 = k
  · rw [if_pos hk]
    have : a % 4 = 0 ∨ a % 4 = 1 ∨ a % 4 = 2 ∨ a % 4 = 3 := by omega
    rcases this with e | e | e | e
    · rw [if_neg (by omega), if_neg (by omega), if_neg (by omega), if_pos (by omega), e]
    · rw [if_neg (by omega), if_neg (by omega), if_pos (by omega), e]
    · rw [if_neg (by omega), if_pos (by omega), e]
    · rw [if_pos (by omega), e]
  · rw [if_neg (by omega), if_neg (by omega), if_neg (by omega), if_neg (by omega), if_neg hk]

/-- The whole effect of a word write on words (20 R50: a load returns the most recent store to its word). -/
theorem Memory.readWord_writeWord {m : Memory} (h : m.wf) (k j : Nat) (v : Word) :
    (m.writeWord k v).readWord j = if j = k then v else m.readWord j := by
  unfold Memory.readWord
  simp only [Memory.readByte_writeWord h]
  have e0 : 4 * j / 4 = j := by omega
  have e1 : (4 * j + 1) / 4 = j := by omega
  have e2 : (4 * j + 2) / 4 = j := by omega
  have e3 : (4 * j + 3) / 4 = j := by omega
  have r0 : 4 * j % 4 = 0 := by omega
  have r1 : (4 * j + 1) % 4 = 1 := by omega
  have r2 : (4 * j + 2) % 4 = 2 := by omega
  have r3 : (4 * j + 3) % 4 = 3 := by omega
  simp only [e0, e1, e2, e3, r0, r1, r2, r3]
  split
  · exact wordOfBytes_byteOfWord v
  · rfl

/-- Two memories that read alike byte by byte read alike word by word. -/
theorem Memory.readWord_congr {m m' : Memory} (h : ∀ a, m.readByte a = m'.readByte a) (k : Nat) :
    m.readWord k = m'.readWord k := by
  unfold Memory.readWord; simp only [h]

/-! ### The address translator (20 R43, R44) -/

theorem admits_iff (c : Config) (ea : Int) : admits c ea = true ↔ 0 ≤ ea ∧ ea < 4 * (c.memWords : Int) := by
  simp [admits, memBytes]

/-- An admitted address selects a word of memory. -/
theorem wordIndex_lt {c : Config} {ea : Int} (h : admits c ea = true) : wordIndex ea < c.memWords := by
  rw [admits_iff] at h; unfold wordIndex; omega

/-- A memory read answers exactly when its address is admitted. -/
theorem State.memRead_cases (s : State) (ea : Int) :
    (admits s.cfg ea = true ∧ s.memRead ea = some (s.mem.readWord (wordIndex ea))) ∨
      (admits s.cfg ea = false ∧ s.memRead ea = none) := by
  unfold State.memRead; cases h : admits s.cfg ea <;> simp

/-- A memory write answers exactly when its address is admitted, and changes memory alone. -/
theorem State.memWrite_cases (s : State) (ea : Int) (v : Word) :
    (admits s.cfg ea = true ∧ s.memWrite ea v = some { s with mem := s.mem.writeWord (wordIndex ea) v }) ∨
      (admits s.cfg ea = false ∧ s.memWrite ea v = none) := by
  unfold State.memWrite; cases h : admits s.cfg ea <;> simp

end Sys2Proof.Machine
end

