-- ==== Sys2Proof/Laws/State.lean ====
section
/-! SUPPORT. One lemma per field of State per update, so that no later proof unfolds a record update. -/

namespace Sys2Proof.Machine

variable (s : State) (i r : RegIdx) (v w : Word) (t : Int) (c : Cause)

/-! ### State.writeReg -/

@[simp] theorem State.writeReg_pc : (s.writeReg i v).pc = s.pc := by unfold State.writeReg; split <;> rfl
@[simp] theorem State.writeReg_mem : (s.writeReg i v).mem = s.mem := by unfold State.writeReg; split <;> rfl
@[simp] theorem State.writeReg_runState : (s.writeReg i v).runState = s.runState := by unfold State.writeReg; split <;> rfl
@[simp] theorem State.writeReg_prevPc : (s.writeReg i v).prevPc = s.prevPc := by unfold State.writeReg; split <;> rfl
@[simp] theorem State.writeReg_stepCount : (s.writeReg i v).stepCount = s.stepCount := by unfold State.writeReg; split <;> rfl
@[simp] theorem State.writeReg_cfg : (s.writeReg i v).cfg = s.cfg := by unfold State.writeReg; split <;> rfl

/-! ### State.commit -/

@[simp] theorem State.commit_regs : (s.commit t).regs = s.regs := by unfold State.commit; split <;> rfl
@[simp] theorem State.commit_pc : (s.commit t).pc = trunc32 t := by unfold State.commit; split <;> rfl
@[simp] theorem State.commit_mem : (s.commit t).mem = s.mem := by unfold State.commit; split <;> rfl
@[simp] theorem State.commit_prevPc : (s.commit t).prevPc = some s.pc := by unfold State.commit; split <;> rfl
@[simp] theorem State.commit_stepCount : (s.commit t).stepCount = s.stepCount := by unfold State.commit; split <;> rfl
@[simp] theorem State.commit_cfg : (s.commit t).cfg = s.cfg := by unfold State.commit; split <;> rfl
@[simp] theorem State.commit_readReg : (s.commit t).readReg r = s.readReg r := by simp [State.readReg]
theorem State.commit_runState :
    (s.commit t).runState = if inWordRange t then s.runState else .faulted (.fetchFault t) := by
  unfold State.commit; split <;> rfl

/-! ### State.raise, State.halt, State.countCycle -/

@[simp] theorem State.raise_regs : (s.raise c).regs = s.regs := rfl
@[simp] theorem State.raise_pc : (s.raise c).pc = s.pc := rfl
@[simp] theorem State.raise_mem : (s.raise c).mem = s.mem := rfl
@[simp] theorem State.raise_runState : (s.raise c).runState = .faulted c := rfl
@[simp] theorem State.raise_prevPc : (s.raise c).prevPc = s.prevPc := rfl
@[simp] theorem State.raise_stepCount : (s.raise c).stepCount = s.stepCount := rfl
@[simp] theorem State.raise_cfg : (s.raise c).cfg = s.cfg := rfl
@[simp] theorem State.raise_readReg : (s.raise c).readReg r = s.readReg r := rfl

@[simp] theorem State.halt_regs : s.halt.regs = s.regs := rfl
@[simp] theorem State.halt_pc : s.halt.pc = s.pc := rfl
@[simp] theorem State.halt_mem : s.halt.mem = s.mem := rfl
@[simp] theorem State.halt_runState : s.halt.runState = .halted := rfl
@[simp] theorem State.halt_prevPc : s.halt.prevPc = s.prevPc := rfl
@[simp] theorem State.halt_stepCount : s.halt.stepCount = s.stepCount := rfl
@[simp] theorem State.halt_cfg : s.halt.cfg = s.cfg := rfl
@[simp] theorem State.halt_readReg : s.halt.readReg r = s.readReg r := rfl

@[simp] theorem State.countCycle_regs : s.countCycle.regs = s.regs := rfl
@[simp] theorem State.countCycle_pc : s.countCycle.pc = s.pc := rfl
@[simp] theorem State.countCycle_mem : s.countCycle.mem = s.mem := rfl
@[simp] theorem State.countCycle_runState : s.countCycle.runState = s.runState := rfl
@[simp] theorem State.countCycle_prevPc : s.countCycle.prevPc = s.prevPc := rfl
@[simp] theorem State.countCycle_stepCount : s.countCycle.stepCount = s.stepCount + 1 := rfl
@[simp] theorem State.countCycle_cfg : s.countCycle.cfg = s.cfg := rfl
@[simp] theorem State.countCycle_readReg : s.countCycle.readReg r = s.readReg r := rfl
@[simp] theorem State.countCycle_canFetch : s.countCycle.canFetch = s.canFetch := rfl
@[simp] theorem State.countCycle_fetch : s.countCycle.fetch = s.fetch := rfl

/-! ### State.placeFetchWord -/

@[simp] theorem State.placeFetchWord_regs : (s.placeFetchWord w).regs = s.regs := rfl
@[simp] theorem State.placeFetchWord_pc : (s.placeFetchWord w).pc = s.pc := rfl
@[simp] theorem State.placeFetchWord_runState : (s.placeFetchWord w).runState = s.runState := rfl
@[simp] theorem State.placeFetchWord_prevPc : (s.placeFetchWord w).prevPc = s.prevPc := rfl
@[simp] theorem State.placeFetchWord_stepCount : (s.placeFetchWord w).stepCount = s.stepCount := rfl
@[simp] theorem State.placeFetchWord_cfg : (s.placeFetchWord w).cfg = s.cfg := rfl
@[simp] theorem State.placeFetchWord_mem : (s.placeFetchWord w).mem = s.mem.writeWord (s.pc.toNat / 4) w := rfl
@[simp] theorem State.placeFetchWord_canFetch : (s.placeFetchWord w).canFetch = s.canFetch := rfl

/-! ### Reading a register (10 R21, R22) -/

@[simp] theorem State.readReg_zero : s.readReg 0#5 = 0#32 := rfl

@[simp] theorem State.writeReg_zero : s.writeReg 0#5 v = s := rfl

/-- The whole effect of the write primitive on what registers read. -/
theorem State.readReg_writeReg :
    (s.writeReg i v).readReg r = if r = i then (if i = 0 then 0 else v) else s.readReg r := by
  have hne : i.toNat = r.toNat ↔ r = i := by rw [BitVec.toNat_inj]; exact eq_comm
  unfold State.readReg State.writeReg
  split
  · next hr => subst hr; split <;> simp_all
  · next hr =>
    split
    · next hi => subst hi; rw [if_neg hr]
    · simp only [Vector.getElem_set, hne]

/-- The zero slot survives every register write. -/
theorem State.writeReg_slotZero (h : s.regs[0] = 0) : (s.writeReg i v).regs[0] = 0 := by
  unfold State.writeReg
  split
  · exact h
  · next hi =>
    have : i.toNat ≠ 0 := fun h0 => hi (BitVec.eq_of_toNat_eq (by simpa using h0))
    rw [Vector.getElem_set_ne _ _ this]; exact h

end Sys2Proof.Machine
end

