-- ==== Sys2Proof/Laws/Exec.lean ====
section
/-! SUPPORT. Everything an execution and a step can do, said once: later proofs cite `exec_next_cases` and `step_next_cases` and
unfold neither exec nor step. -/

namespace Sys2Proof.Machine

theorem inWordRange_iff (t : Int) : inWordRange t = true ↔ 0 ≤ t ∧ t < 2 ^ 32 := by simp [inWordRange]

/-- The next sequential pc is representable wherever an instruction can be fetched (00 R7, D26). -/
theorem State.sequential_inWordRange {s : State} (hm : s.cfg.memWords ≤ 2 ^ 29) (hp : s.pc.toNat < memBytes s.cfg) :
    inWordRange s.sequential = true := by
  rw [inWordRange_iff]; unfold State.sequential; unfold memBytes at hp; omega

/-- What an instruction writes before its next pc is committed: nothing, one register, or one word of memory. -/
inductive Effect (s : State) : State → Prop where
  | nothing : Effect s s
  | register (rd : RegIdx) (v : Word) : Effect s (s.writeReg rd v)
  | word (k : Nat) (v : Word) (h : k < s.cfg.memWords) : Effect s { s with mem := s.mem.writeWord k v }

/-- Counting the cycle changes no next pc. -/
@[simp] theorem State.nextPcOf_countCycle (s : State) (i : Instr) : s.countCycle.nextPcOf i = s.nextPcOf i := by
  cases i <;> rfl

/-- Everything `exec` can do when it answers a next state: complete and commit the instruction's next pc, halt, or fault with nothing
changed. -/
theorem exec_next_cases {i : Instr} {s t : State} (h : exec i s = .next t) :
    (∃ s' n, Effect s s' ∧ s.nextPcOf i = some n ∧ t = s'.commit n) ∨ t = s.halt ∨ ∃ c, t = s.raise c := by
  cases i with
  | halt => injection h with h; exact .inr (.inl h.symm)
  | haltSys ig => injection h with h; exact .inr (.inl h.symm)
  | add rd rs1 rs2 => injection h with h; exact .inl ⟨_, _, .register _ _, rfl, h.symm⟩
  | sub rd rs1 rs2 => injection h with h; exact .inl ⟨_, _, .register _ _, rfl, h.symm⟩
  | slt rd rs1 rs2 => injection h with h; exact .inl ⟨_, _, .register _ _, rfl, h.symm⟩
  | srl rd rs1 rs2 => injection h with h; exact .inl ⟨_, _, .register _ _, rfl, h.symm⟩
  | or rd rs1 rs2 => injection h with h; exact .inl ⟨_, _, .register _ _, rfl, h.symm⟩
  | and rd rs1 rs2 => injection h with h; exact .inl ⟨_, _, .register _ _, rfl, h.symm⟩
  | addi rd rs1 imm => injection h with h; exact .inl ⟨_, _, .register _ _, rfl, h.symm⟩
  | lw rd rs1 imm =>
    simp only [exec, execLw] at h
    split at h
    · injection h with h; exact .inl ⟨_, _, .register _ _, rfl, h.symm⟩
    · injection h with h; exact .inr (.inr ⟨_, h.symm⟩)
  | jalr rd rs1 imm =>
    simp only [exec, execJalr] at h
    split at h
    · cases h
    · injection h with h; exact .inl ⟨_, _, .register _ _, rfl, h.symm⟩
  | sw rs2 rs1 imm =>
    simp only [exec, execSw] at h
    obtain ⟨ha, hw⟩ | ⟨-, hw⟩ := s.memWrite_cases (s.baseDisp rs1 imm) (s.readReg rs2)
    · rw [hw] at h; injection h with h
      exact .inl ⟨_, _, .word _ _ (wordIndex_lt ha), rfl, h.symm⟩
    · rw [hw] at h; injection h with h; exact .inr (.inr ⟨_, h.symm⟩)
  | beq rs1 rs2 imm => injection h with h; exact .inl ⟨_, _, .nothing, by simp [State.nextPcOf, taken, State.pcRelative, State.sequential], h.symm⟩
  | bne rs1 rs2 imm => injection h with h; exact .inl ⟨_, _, .nothing, by simp [State.nextPcOf, taken, State.pcRelative, State.sequential], h.symm⟩
  | blt rs1 rs2 imm => injection h with h; exact .inr (.inr ⟨_, h.symm⟩)
  | jal rd imm => injection h with h; exact .inl ⟨_, _, .register _ _, rfl, h.symm⟩

/-- The guards let a cycle pass exactly when the count is below the limit and the pc is not the previous one. -/
theorem guardStop_none_iff (s : State) :
    guardStop s = none ↔ s.stepCount < s.cfg.stepLimit ∧ s.prevPc ≠ some s.pc := by
  unfold guardStop; split
  · simp; omega
  · split <;> simp_all

/-- A fetch answers exactly when the pc is an aligned address in memory. -/
theorem State.fetch_cases (s : State) :
    (s.canFetch = true ∧ s.fetch = some (s.mem.readWord (s.pc.toNat / 4))) ∨ (s.canFetch = false ∧ s.fetch = none) := by
  unfold State.fetch; cases h : s.canFetch <;> simp

theorem State.canFetch_iff (s : State) :
    s.canFetch = true ↔ s.pc.toNat % 4 = 0 ∧ s.pc.toNat < memBytes s.cfg := by simp [State.canFetch]

/-- A cycle executes an instruction exactly when the fetch answers a word that decodes to it. -/
theorem fetchDecode_instr_iff (s : State) (i : Instr) :
    fetchDecode s = .instr i ↔ s.canFetch = true ∧ decode s.cfg.enc (s.mem.readWord (s.pc.toNat / 4)) = .instr i := by
  unfold fetchDecode
  obtain ⟨hc, hf⟩ | ⟨hc, hf⟩ := s.fetch_cases
  · rw [hf]; simp only [hc, true_and]
    cases decode s.cfg.enc (s.mem.readWord (s.pc.toNat / 4)) <;> simp
  · simp [hf, hc]

/-- Everything a step can do when it answers a next state. -/
theorem step_next_cases {s t : State} (h : step s = .next t) :
    (s.runState ≠ .running ∧ t = s) ∨
    (s.runState = .running ∧ ∃ c, guardStop s = some c ∧ t = s.raise c) ∨
    (s.runState = .running ∧ guardStop s = none ∧ ∃ c, fetchDecode s = .fault c ∧ t = s.countCycle.raise c) ∨
    (s.runState = .running ∧ guardStop s = none ∧ ∃ i, fetchDecode s = .instr i ∧ exec i s.countCycle = .next t) := by
  unfold step cycleOrStay at h
  cases hr : s.runState with
  | halted => rw [hr] at h; injection h with h; exact .inl ⟨by simp, h.symm⟩
  | faulted c => rw [hr] at h; injection h with h; exact .inl ⟨by simp, h.symm⟩
  | running =>
    rw [hr] at h
    simp only [cycle] at h
    cases hg : guardStop s with
    | some c => rw [hg] at h; injection h with h; exact .inr (.inl ⟨rfl, c, rfl, h.symm⟩)
    | none =>
      rw [hg] at h
      cases hf : fetchDecode s with
      | fault c => rw [hf] at h; injection h with h; exact .inr (.inr (.inl ⟨rfl, rfl, c, rfl, h.symm⟩))
      | instr i => rw [hf] at h; exact .inr (.inr (.inr ⟨rfl, rfl, i, rfl, h⟩))

end Sys2Proof.Machine
end

