-- ==== Sys2Proof/Laws/PerInstr.lean ====
section
/-! SUPPORT. Per-instruction statements. `TableRow`: the word the encoder makes of an instruction, under the table of 00_scope.md R8,
has the fixed bits of the instruction's row in spec/opcode_table.json. -/

namespace Sys2Proof.Laws.TableRow

open Sys2Proof Sys2Proof.Machine

/-- The encoded word matches its row's match value under the row's mask (30 R77). -/
def Statement (i : Instr) : Prop :=
  ∃ r, opcodeRows[rowOf i]? = some r ∧ encode Enc.default i &&& r.1 = r.2

variable (rd rs1 rs2 : RegIdx)

theorem halt : Statement .halt := ⟨_, rfl, by decide⟩

theorem haltSys (ignored : BitVec 25) : Statement (.haltSys ignored) := by
  refine ⟨_, rfl, BitVec.eq_of_getLsbD_eq fun j hj => ?_⟩
  simp only [encode, Enc.default, BitVec.getLsbD_and, BitVec.getLsbD_append]
  interval_cases j <;> simp

theorem add : Statement (.add rd rs1 rs2) := by
  refine ⟨_, rfl, BitVec.eq_of_getLsbD_eq fun j hj => ?_⟩
  simp only [encode, encodeR, Enc.default, BitVec.getLsbD_and, BitVec.getLsbD_append]
  interval_cases j <;> simp

theorem sub : Statement (.sub rd rs1 rs2) := by
  refine ⟨_, rfl, BitVec.eq_of_getLsbD_eq fun j hj => ?_⟩
  simp only [encode, encodeR, Enc.default, BitVec.getLsbD_and, BitVec.getLsbD_append]
  interval_cases j <;> simp

theorem slt : Statement (.slt rd rs1 rs2) := by
  refine ⟨_, rfl, BitVec.eq_of_getLsbD_eq fun j hj => ?_⟩
  simp only [encode, encodeR, Enc.default, BitVec.getLsbD_and, BitVec.getLsbD_append]
  interval_cases j <;> simp

theorem srl : Statement (.srl rd rs1 rs2) := by
  refine ⟨_, rfl, BitVec.eq_of_getLsbD_eq fun j hj => ?_⟩
  simp only [encode, encodeR, Enc.default, BitVec.getLsbD_and, BitVec.getLsbD_append]
  interval_cases j <;> simp

theorem or : Statement (.or rd rs1 rs2) := by
  refine ⟨_, rfl, BitVec.eq_of_getLsbD_eq fun j hj => ?_⟩
  simp only [encode, encodeR, Enc.default, BitVec.getLsbD_and, BitVec.getLsbD_append]
  interval_cases j <;> simp

theorem and : Statement (.and rd rs1 rs2) := by
  refine ⟨_, rfl, BitVec.eq_of_getLsbD_eq fun j hj => ?_⟩
  simp only [encode, encodeR, Enc.default, BitVec.getLsbD_and, BitVec.getLsbD_append]
  interval_cases j <;> simp

theorem addi (imm : BitVec 12) : Statement (.addi rd rs1 imm) := by
  refine ⟨_, rfl, BitVec.eq_of_getLsbD_eq fun j hj => ?_⟩
  simp only [encode, encodeI, Enc.default, BitVec.getLsbD_and, BitVec.getLsbD_append]
  interval_cases j <;> simp

theorem lw (imm : BitVec 12) : Statement (.lw rd rs1 imm) := by
  refine ⟨_, rfl, BitVec.eq_of_getLsbD_eq fun j hj => ?_⟩
  simp only [encode, encodeI, Enc.default, BitVec.getLsbD_and, BitVec.getLsbD_append]
  interval_cases j <;> simp

theorem jalr (imm : BitVec 12) : Statement (.jalr rd rs1 imm) := by
  refine ⟨_, rfl, BitVec.eq_of_getLsbD_eq fun j hj => ?_⟩
  simp only [encode, encodeI, Enc.default, BitVec.getLsbD_and, BitVec.getLsbD_append]
  interval_cases j <;> simp

theorem sw (imm : BitVec 12) : Statement (.sw rs2 rs1 imm) := by
  refine ⟨_, rfl, BitVec.eq_of_getLsbD_eq fun j hj => ?_⟩
  simp only [encode, encodeS, Enc.default, BitVec.getLsbD_and, BitVec.getLsbD_append]
  interval_cases j <;> simp

theorem beq (imm : BitVec 13) : Statement (.beq rs1 rs2 imm) := by
  refine ⟨_, rfl, BitVec.eq_of_getLsbD_eq fun j hj => ?_⟩
  simp only [encode, encodeB, Enc.default, BitVec.getLsbD_and, BitVec.getLsbD_append]
  interval_cases j <;> simp

theorem bne (imm : BitVec 13) : Statement (.bne rs1 rs2 imm) := by
  refine ⟨_, rfl, BitVec.eq_of_getLsbD_eq fun j hj => ?_⟩
  simp only [encode, encodeB, Enc.default, BitVec.getLsbD_and, BitVec.getLsbD_append]
  interval_cases j <;> simp

theorem blt (imm : BitVec 13) : Statement (.blt rs1 rs2 imm) := by
  refine ⟨_, rfl, BitVec.eq_of_getLsbD_eq fun j hj => ?_⟩
  simp only [encode, encodeB, Enc.default, BitVec.getLsbD_and, BitVec.getLsbD_append]
  interval_cases j <;> simp

theorem jal (imm : BitVec 21) : Statement (.jal rd imm) := by
  refine ⟨_, rfl, BitVec.eq_of_getLsbD_eq fun j hj => ?_⟩
  simp only [encode, encodeJ, Enc.default, BitVec.getLsbD_and, BitVec.getLsbD_append]
  interval_cases j <;> simp

end Sys2Proof.Laws.TableRow
end

