-- ==== Sys2Proof/Laws/Run.lean ====
section
/-! SUPPORT. Runs of the machine (Host.Core.run): one step more, and the induction over a run packaged once. -/

namespace Sys2Proof.Machine

@[simp] theorem run_zero (s : State) : Host.Core.run core 0 s = .next s := rfl

/-- A run of one more step whose first step answers. -/
theorem run_succ_of_next {s s' : State} (n : Nat) (h : step s = .next s') :
    Host.Core.run core (n + 1) s = Host.Core.run core n s' := by
  have hc : core.step s = .next s' := h
  simp only [Host.Core.run, hc]

/-- A run of one more step that answers has a first step that answers. -/
theorem run_succ_cases {s t : State} {n : Nat} (h : Host.Core.run core (n + 1) s = .next t) :
    ∃ s', step s = .next s' ∧ Host.Core.run core n s' = .next t := by
  simp only [Host.Core.run] at h
  cases hs : core.step s with
  | next s' => rw [hs] at h; exact ⟨s', hs, h⟩
  | fault r => rw [hs] at h; cases h
  | refused r => rw [hs] at h; cases h

/-- What every step keeps, every run keeps. -/
theorem run_keeps {P : State → Prop} (hstep : ∀ s s', P s → step s = .next s' → P s') :
    ∀ (n : Nat) (s t : State), P s → Host.Core.run core n s = .next t → P t
  | 0, s, t, hs, h => by injection h with h; exact h ▸ hs
  | n + 1, s, t, hs, h => by
    obtain ⟨s', h1, h2⟩ := run_succ_cases h
    exact run_keeps hstep n s' t (hstep s s' hs h1) h2

/-- A machine that is not Running stays as it is (10 R32). -/
theorem step_of_not_running {s : State} (h : s.runState ≠ .running) : step s = .next s := by
  unfold step cycleOrStay
  cases hr : s.runState with
  | running => exact absurd hr h
  | halted => rfl
  | faulted c => rfl

theorem step_of_running {s : State} (h : s.runState = .running) : step s = cycle s := by
  unfold step cycleOrStay; rw [h]

end Sys2Proof.Machine
end

