-- ==== Sys2Proof/Tests/Slice0.lean ====
section
/-! SUPPORT. The model's own tests. Expected results are the vectors of spec/95_test_vectors.md (named in each docstring) or words
written out here from the formats of 30_encoding.md; the last section shows that the hypotheses of every obligation can be met. -/

open Sys2Proof Sys2Proof.Machine

namespace Sys2Proof.Tests

/-! ### Helpers -/

/-- The state after reset with the given pc, registers and memory words. -/
def start (pc : Word) (regs : List (RegIdx × Word)) (words : List (Nat × Word)) : State :=
  let s := regs.foldl (fun t r => t.writeReg r.1 r.2) State.reset
  { s with pc := pc, mem := words.foldl (fun m e => m.writeWord e.1 e.2) s.mem }

/-- The start state with `w` at its pc. -/
def placed (w : Word) (pc : Word) (regs : List (RegIdx × Word)) (words : List (Nat × Word)) : State :=
  (start pc regs words).placeFetchWord w

/-- The outcome is a next state of which `p` holds. -/
def sees (o : Host.Outcome State Fault Refusal) (p : State → Bool) : Bool :=
  match o with
  | .next t => p t
  | .fault _ => false
  | .refused _ => false

theorem exists_of_sees {o : Host.Outcome State Fault Refusal} {p : State → Bool} (h : sees o p = true) :
    ∃ t, o = .next t ∧ p t = true := by
  cases o with
  | next t => exact ⟨t, rfl, h⟩
  | fault f => cases f
  | refused r => cases h

/-- Two steps. -/
def step2 (s : State) : Host.Outcome State Fault Refusal :=
  match step s with
  | .next t => step t
  | .fault f => .fault f
  | .refused r => .refused r

def refusing (s : State) : State := { s with cfg := { s.cfg with jalrAlias := .refuse } }
def limited (n : Nat) (s : State) : State := { s with cfg := { s.cfg with stepLimit := n } }

/-! ### Well-formedness: one ill-formed term for each check -/

theorem test_wf_refuses_odd_beq : Instr.wf (.beq 1 2 3) = false := by decide
theorem test_wf_refuses_halt_fields_as_beq : Instr.wf (.beq 0 0 0) = false := by decide
theorem test_wf_refuses_odd_bne : Instr.wf (.bne 1 2 1) = false := by decide
theorem test_wf_refuses_odd_blt : Instr.wf (.blt 1 2 5) = false := by decide
theorem test_wf_refuses_odd_jal : Instr.wf (.jal 1 7) = false := by decide
theorem test_wf_accepts_near_misses :
    Instr.wf (.beq 0 0 8) = true ∧ Instr.wf (.beq 1 0 0) = true ∧ Instr.wf (.beq 0 1 0) = true ∧ Instr.wf (.bne 0 0 0) = true := by
  decide
theorem test_enc_wf_refuses_equal_opcodes : Enc.wf { Enc.default with opcJal := 0b1100111#7 } = false := by decide
theorem test_enc_wf_refuses_equal_r_codes : Enc.wf { Enc.default with f7Alt := 0b0000000#7 } = false := by decide
theorem test_enc_wf_refuses_equal_branch_codes : Enc.wf { Enc.default with f3Blt := 0b001#3 } = false := by decide
theorem test_config_wf_refuses_no_memory : Config.wf { defaultConfig with memWords := 0 } = false := by decide
theorem test_config_wf_refuses_too_much_memory : Config.wf { defaultConfig with memWords := 2 ^ 29 + 1 } = false := by decide
theorem test_config_wf_accepts_the_most_memory : Config.wf { defaultConfig with memWords := 2 ^ 29 } = true := by decide

/-! ### Decoding: one word per constructor, its fields written out from the formats of 30 R61 to R66 and the codes of 00 R8 -/

/-- funct7, rs2 = 2, rs1 = 1, funct3, rd = 3, opcode (30 R62). -/
theorem test_decode_r_format :
    decode Enc.default (0b0000000#7 ++ 0b00010#5 ++ 0b00001#5 ++ 0b000#3 ++ 0b00011#5 ++ 0b0110011#7) = .instr (.add 3 1 2) ∧
    decode Enc.default (0b0100000#7 ++ 0b00010#5 ++ 0b00001#5 ++ 0b000#3 ++ 0b00011#5 ++ 0b0110011#7) = .instr (.sub 3 1 2) ∧
    decode Enc.default (0b0000000#7 ++ 0b00010#5 ++ 0b00001#5 ++ 0b010#3 ++ 0b00011#5 ++ 0b0110011#7) = .instr (.slt 3 1 2) ∧
    decode Enc.default (0b0000000#7 ++ 0b00010#5 ++ 0b00001#5 ++ 0b101#3 ++ 0b00011#5 ++ 0b0110011#7) = .instr (.srl 3 1 2) ∧
    decode Enc.default (0b0000000#7 ++ 0b00010#5 ++ 0b00001#5 ++ 0b110#3 ++ 0b00011#5 ++ 0b0110011#7) = .instr (.or 3 1 2) ∧
    decode Enc.default (0b0000000#7 ++ 0b00010#5 ++ 0b00001#5 ++ 0b111#3 ++ 0b00011#5 ++ 0b0110011#7) = .instr (.and 3 1 2) := by
  decide

/-- imm, rs1, funct3, rd, opcode (30 R63); 95 V1 gives every bit of the first. -/
theorem test_decode_i_format :
    decode Enc.default (0b000000000101#12 ++ 0b00000#5 ++ 0b000#3 ++ 0b01010#5 ++ 0b0010011#7) = .instr (.addi 10 0 5) ∧
    decode Enc.default (0b000000001000#12 ++ 0b00101#5 ++ 0b010#3 ++ 0b00110#5 ++ 0b0000011#7) = .instr (.lw 6 5 8) ∧
    decode Enc.default (0b100000000001#12 ++ 0b00101#5 ++ 0b000#3 ++ 0b00001#5 ++ 0b1100111#7) =
      .instr (.jalr 1 5 (toSignedBits (-2047) 12)) := by
  decide

/-- imm[11:5], rs2 = 6, rs1 = 5, funct3, imm[4:0], opcode (30 R64), the immediate 12. -/
theorem test_decode_s_format :
    decode Enc.default (0b0000000#7 ++ 0b00110#5 ++ 0b00101#5 ++ 0b010#3 ++ 0b01100#5 ++ 0b0100011#7) = .instr (.sw 6 5 12) := by
  decide

/-- imm[12], imm[10:5], rs2 = 2, rs1 = 1, funct3, imm[4:1], imm[11], opcode (30 R65), the immediate 8; the last is all zero. -/
theorem test_decode_b_format :
    decode Enc.default (0b0#1 ++ 0b000000#6 ++ 0b00010#5 ++ 0b00001#5 ++ 0b000#3 ++ 0b0100#4 ++ 0b0#1 ++ 0b1100011#7) =
      .instr (.beq 1 2 8) ∧
    decode Enc.default (0b0#1 ++ 0b000000#6 ++ 0b00010#5 ++ 0b00001#5 ++ 0b001#3 ++ 0b0100#4 ++ 0b0#1 ++ 0b1100011#7) =
      .instr (.bne 1 2 8) ∧
    decode Enc.default (0b0#1 ++ 0b000000#6 ++ 0b00010#5 ++ 0b00001#5 ++ 0b100#3 ++ 0b0100#4 ++ 0b0#1 ++ 0b1100011#7) =
      .instr (.blt 1 2 8) ∧
    decode Enc.default (0b0#1 ++ 0b000000#6 ++ 0b00000#5 ++ 0b00000#5 ++ 0b000#3 ++ 0b0000#4 ++ 0b0#1 ++ 0b1100011#7) =
      .instr .halt := by
  decide

/-- imm[20], imm[10:1], imm[11], imm[19:12], rd = 1, opcode (30 R66), the immediate 8; and the SYS class. -/
theorem test_decode_j_format_and_sys :
    decode Enc.default (0b0#1 ++ 0b0000000100#10 ++ 0b0#1 ++ 0b00000000#8 ++ 0b00001#5 ++ 0b1101111#7) = .instr (.jal 1 8) ∧
    decode Enc.default (0b0011000000100000000000000#25 ++ 0b1110011#7) = .instr (.haltSys 0x0604000#25) := by
  decide

/-- 95 D-DEC, classes R and I. -/
theorem test_decode_vectors_r_i : ∀ p ∈ ([(0x002081B3, .instr (.add 3 1 2)), (0x402081B3, .instr (.sub 3 1 2)),
    (0x4020D1B3, .unknownInstruction 0x4020D1B3), (0x022081B3, .unknownInstruction 0x022081B3),
    (0xFFF28293, .instr (.addi 5 5 (toSignedBits (-1) 12))), (0x80000093, .instr (.addi 1 0 (toSignedBits (-2048) 12))),
    (0x7FF00093, .instr (.addi 1 0 2047)), (0x00109093, .unknownInstruction 0x00109093), (0x0082A303, .instr (.lw 6 5 8)),
    (0x00010583, .unknownInstruction 0x00010583), (0x00008067, .instr (.jalr 0 1 0)),
    (0x0000A067, .unknownInstruction 0x0000A067)] : List (Word × Decoded)), decode Enc.default p.1 = p.2 := by
  decide

/-- 95 D-DEC, classes S, B, J, SYS, UNKNOWN. -/
theorem test_decode_vectors_rest : ∀ p ∈ ([(0x06602223, .instr (.sw 6 0 100)), (0x0062B623, .unknownInstruction 0x0062B623),
    (0x00001063, .instr (.bne 0 0 0)), (0x7E208FE3, .instr (.beq 1 2 4094)), (0x00108063, .instr (.beq 1 1 0)),
    (0x0020C463, .instr (.blt 1 2 8)), (0x0020F463, .unknownBranch 0x0020F463),
    (0xFFDFF06F, .instr (.jal 0 (toSignedBits (-4) 21))), (0x7FFFF0EF, .instr (.jal 1 1048574)),
    (0x00100073, .instr (.haltSys 0x2000#25)), (0, .unknownInstruction 0), (0xFFFFFFFF, .unknownInstruction 0xFFFFFFFF),
    (0x00000037, .unknownInstruction 0x00000037)] : List (Word × Decoded)), decode Enc.default p.1 = p.2 := by
  decide

/-- 95 D-DEC, the single-bit scatter of the B, J and S immediates. -/
theorem test_decode_immediate_scatter :
    (∀ p ∈ ([(0x00000163, 2), (0x00000863, 16), (0x02000063, 32), (0x40000063, 1024), (0x000000E3, 2048), (0x80000063, -4096)] :
      List (Word × Int)), (immB p.1).toInt = p.2) ∧
    (∀ p ∈ ([(0x0020006F, 2), (0x4000006F, 1024), (0x0010006F, 2048), (0x0000106F, 4096), (0x0008006F, 524288),
      (0x8000006F, -1048576)] : List (Word × Int)), (immJ p.1).toInt = p.2) ∧
    (∀ p ∈ ([(0x000020A3, 1), (0x00002823, 16), (0x02002023, 32), (0x80002023, -2048)] : List (Word × Int)),
      (immS p.1).toInt = p.2) := by
  decide

/-- 95 V5. -/
theorem test_signed_bits_instances :
    toSignedBits (-8) 13 = 0b1111111111000#13 ∧ toSignedBits (-4) 21 = 0b111111111111111111100#21 ∧
    fromSignedBits 0b111111111111#12 = -1 ∧ fromSignedBits 0b011111111111#12 = 2047 ∧
    fromSignedBits 0b100000000000000000000#21 = -1048576 := by
  decide

/-- The encoder on 95 V2 and P1, P2, and the host's reading of a table word. -/
theorem test_encode_words :
    encode Enc.default (.jal 0 (toSignedBits (-4) 21)) = 0xFFDFF06F ∧ encode Enc.default (.sw 10 2 0) = 0x00A12023 ∧
    encode Enc.default (.bne 5 0 (toSignedBits (-8) 13)) = 0xFE029CE3 ∧ encode Enc.default (.addi 10 10 1) = 0x00150513 ∧
    decodeTableWord 32 0x00C000EF = some (.jal 1 12) ∧ decodeTableWord 32 0x0020F463 = none := by
  decide

/-! ### One step of each instruction (95 Part 2) -/

/-- 95 D-ALU. -/
theorem test_add_wraps :
    sees (step (placed 0x002081B3 0 [(1, 0xFFFFFFFF), (2, 2)] [])) (fun t => t.readReg 3 == 1 && t.pc == 4) = true := by decide
theorem test_add_source_is_destination :
    sees (step (placed 0x001080B3 0 [(1, 0x40000001)] [])) (fun t => t.readReg 1 == 0x80000002) = true := by decide
theorem test_sub_borrows :
    sees (step (placed 0x402081B3 0 [(1, 5), (2, 7)] [])) (fun t => t.readReg 3 == 0xFFFFFFFE) = true := by decide
theorem test_slt_is_signed :
    sees (step (placed 0x0020A1B3 0 [(1, 0x80000000), (2, 0x7FFFFFFF)] [])) (fun t => t.readReg 3 == 1) = true ∧
    sees (step (placed 0x0020A1B3 0 [(1, 0x7FFFFFFF), (2, 0x80000000)] [])) (fun t => t.readReg 3 == 0) = true := by decide
theorem test_slt_equal :
    sees (step (placed 0x0020A1B3 0 [(1, 5), (2, 5), (3, 9)] [])) (fun t => t.readReg 3 == 0) = true := by decide
theorem test_srl_is_logical :
    sees (step (placed 0x0020D1B3 0 [(1, 0x80000000), (2, 0x1F)] [])) (fun t => t.readReg 3 == 1) = true := by decide
theorem test_srl_uses_five_bits :
    sees (step (placed 0x0020D1B3 0 [(1, 0x80000000), (2, 0x20)] [])) (fun t => t.readReg 3 == 0x80000000) = true := by decide
theorem test_or :
    sees (step (placed 0x0020E1B3 0 [(1, 0x0F0F0000), (2, 0x00FF00FF)] [])) (fun t => t.readReg 3 == 0x0FFF00FF) = true := by decide
theorem test_and :
    sees (step (placed 0x0020F1B3 0 [(1, 0x0F0F0000), (2, 0x00FF00FF)] [])) (fun t => t.readReg 3 == 0x000F0000) = true := by decide

/-- 95 D-I. -/
theorem test_addi_negative_immediate :
    sees (step (placed 0xFFF28293 0 [(5, 0x80000000)] [])) (fun t => t.readReg 5 == 0x7FFFFFFF && t.pc == 4) = true := by decide
theorem test_addi_to_x0 :
    sees (step (placed 0x00500013 0 [] [])) (fun t => t.readReg 0 == 0 && t.pc == 4) = true := by decide
theorem test_lw_last_word_and_past_it :
    sees (step (placed 0x0082A303 0 [(5, 119)] [(31, 0xDEADBEEF)])) (fun t => t.readReg 6 == 0xDEADBEEF) = true ∧
    sees (step (placed 0x0082A303 0 [(5, 120), (6, 1)] [(31, 0xDEADBEEF)]))
      (fun t => t.readReg 6 == 1 && t.pc == 0 && t.runState == .faulted (.memoryAccess 128)) = true := by decide
theorem test_lw_exact_sum_and_misaligned :
    sees (step (placed 0x0082A303 0 [(5, 0xFFFFFFFC)] [])) (fun t => t.runState == .faulted (.memoryAccess 4294967300)) = true ∧
    sees (step (placed 0x04502103 0 [] [(17, 0x55)])) (fun t => t.readReg 2 == 0x55) = true := by decide
theorem test_jalr_reads_the_base_first :
    sees (step (placed 0x008080E7 4 [(1, 0x10)] [])) (fun t => t.readReg 1 == 8 && t.pc == 0x18) = true := by decide
theorem test_jalr_past_32_bits :
    sees (step (placed 0x00808167 4 [(1, 0xFFFFFFFC)] []))
      (fun t => t.readReg 2 == 8 && t.pc == 4 && t.runState == .faulted (.fetchFault 4294967300)) = true := by decide

/-- 95 D-S. -/
theorem test_sw_misaligned_replaces_the_word :
    sees (step (placed 0x04102323 0 [(1, 0x55)] [(17, 0xFFFFFFFF)])) (fun t => t.mem.readWord 17 == 0x55 && t.pc == 4) = true := by
  decide
theorem test_sw_last_word_and_past_it :
    sees (step (placed 0x0062A623 0 [(5, 115), (6, 7)] [])) (fun t => t.mem.readWord 31 == 7) = true ∧
    sees (step (placed 0x0062A623 0 [(5, 116), (6, 7)] []))
      (fun t => t.mem.readWord 31 == 0 && t.mem.readWord 32 == 0 && t.runState == .faulted (.memoryAccess 128)) = true := by decide

/-- 95 D-B. -/
theorem test_beq_taken_and_not :
    sees (step (placed 0x00208463 12 [(1, 7), (2, 7)] [])) (fun t => t.pc == 20) = true ∧
    sees (step (placed 0x00208463 12 [(1, 7), (2, 8)] [])) (fun t => t.pc == 16) = true := by decide
theorem test_bne_backwards_and_below_zero :
    sees (step (placed 0xFE209CE3 16 [(1, 3)] [])) (fun t => t.pc == 8) = true ∧
    sees (step (placed 0xFE209CE3 4 [(1, 3)] [])) (fun t => t.runState == .faulted (.fetchFault (-4))) = true := by decide
theorem test_bne_zero_zero_falls_through :
    sees (step (placed 0x00001063 0 [] [])) (fun t => t.pc == 4 && t.runState == .running) = true := by decide
theorem test_blt_is_unknown :
    sees (step (placed 0x0020C463 0 [(1, 1), (2, 2)] [])) (fun t => t.pc == 0 && t.runState == .faulted (.unknownBranch 0x0020C463)) =
      true := by decide
theorem test_halt :
    sees (step (placed 0x00000063 8 [] [])) (fun t => t.pc == 8 && t.runState == .halted && t.prevPc == none) = true := by decide

/-- 95 D-J, D-SYS. -/
theorem test_jal_links :
    sees (step (placed 0x008000EF 4 [] [])) (fun t => t.readReg 1 == 8 && t.pc == 12) = true := by decide
theorem test_jal_below_zero :
    sees (step (placed 0xDEADBEEF 0 [] [])) (fun t => t.readReg 29 == 4 && t.runState == .faulted (.fetchFault (-150038))) = true := by
  decide
theorem test_halt_sys :
    sees (step (placed 0x30200073 8 [] [])) (fun t => t.pc == 8 && t.runState == .halted) = true := by decide

/-! ### The cycle, loading, observing (95 D-G, V2, V4) -/

theorem test_pc_repeat_guard :
    sees (step2 (placed 0x000000EF 0 [] []))
      (fun t => t.readReg 1 == 4 && t.stepCount == 1 && t.runState == .faulted (.pcRepeatGuard 0)) = true := by decide
theorem test_unknown_word_is_counted :
    sees (step2 (placed 0x00100093 0 [] []))
      (fun t => t.pc == 4 && t.stepCount == 2 && t.runState == .faulted (.unknownInstruction 0)) = true := by decide
theorem test_step_limit :
    sees (step2 (limited 1 (placed 0x00000013 0 [] []))) (fun t => t.stepCount == 1 && t.runState == .faulted .stepLimitGuard) =
      true := by decide
theorem test_misaligned_fetch :
    sees (step2 (placed 0x000082E7 4 [(1, 6)] [])) (fun t => t.readReg 5 == 8 && t.runState == .faulted (.fetchFault 6)) = true := by
  decide

/-- The line of 95 V1, written out. -/
def lineV1 : List Char :=
  ['0', '0', '0', '0', '0', '0', '0', '0', '0', '1', '0', '1', '0', '0', '0', '0'] ++
  ['0', '0', '0', '0', '0', '1', '0', '1', '0', '0', '0', '1', '0', '0', '1', '1']

theorem test_load_line : parseLine lineV1 = some 0x00500513 ∧ parseLine (lineV1.drop 1) = none ∧ parseLine ('2' :: lineV1.drop 1) = none := by
  decide
theorem test_load_errors :
    loadProgram { defaultConfig with memWords := 1 } memInitZero [lineV1, lineV1] = .error (.programTooLarge 2) ∧
    loadProgram defaultConfig memInitZero [lineV1, []] = .error (.malformedLine 1) := by decide
theorem test_trace_and_dump :
    traceText ⟨0xFFFFFFFC, [5]⟩ = ['f', 'f', 'f', 'f', 'f', 'f', 'f', 'c', ' ', 'x', '0', ':', '0', 'b'] ++ bin32 5 ∧
    (runTrace .next 2 (placed 0xFFDFF06F 0 [] [])).1.length = 1 ∧
    dumpText (0xAB, 0x00500513) = ['0', 'x', '0', '0', '0', '0', '0', '0', 'A', 'B', ':', '0', 'b'] ++ lineV1 := by decide

/-! ### The hypotheses of the obligations can be met

One theorem test_witness_<obligation> for each statement that has hypotheses, or several clauses, at the boundary values. -/

/-- An instruction of every constructor is well-formed. -/
theorem test_witness_DecodeOfEncodeIsTheInstruction :
    Enc.default.wf = true ∧ ∀ i ∈ [Instr.halt, .haltSys 1, .add 3 1 2, .sub 3 1 2, .slt 3 1 2, .srl 3 1 2, .or 3 1 2, .and 3 1 2,
      .addi 31 31 0xFFF, .lw 31 31 0xFFF, .jalr 31 31 0xFFF, .sw 31 31 0xFFF, .beq 31 31 0x1FFE, .bne 31 31 0x1FFE, .blt 31 31 0x1FFE,
      .jal 31 0x1FFFFE], i.wf = true := by decide

theorem test_witness_EncodeOfDecodeIsTheWord : decode Enc.default 0xDEADBEEF = .instr (.jal 29 (toSignedBits (-150038) 21)) := by decide

theorem test_witness_FirstMatchingTableRowGivesTheInstruction :
    firstRow 0x00000063 = some 0 ∧ firstRow 0x00108063 = some 12 ∧ firstRow 0xDEADBEEF = some 15 ∧ firstRow 0 = none ∧
      firstRow 0x0020F463 = none := by decide

/-- A word for each clause. -/
theorem test_witness_UnlistedCodesAreRejectedByName :
    Enc.default.wf = true ∧ fieldOpcode 0x00000037 = 0b0110111#7 ∧
    (fieldOpcode 0x0020C1B3 = Enc.default.opcOp ∧ fieldFunct3 0x0020C1B3 = 0b100#3) ∧
    (fieldOpcode 0x00109093 = Enc.default.opcOpimm ∧ fieldFunct3 0x00109093 ≠ Enc.default.f3Addi) ∧
    (fieldOpcode 0x00010583 = Enc.default.opcLoad ∧ fieldFunct3 0x00010583 ≠ Enc.default.f3Lw) ∧
    (fieldOpcode 0x0000A067 = Enc.default.opcJalr ∧ fieldFunct3 0x0000A067 ≠ Enc.default.f3Jalr) ∧
    (fieldOpcode 0x0062B623 = Enc.default.opcStore ∧ fieldFunct3 0x0062B623 ≠ Enc.default.f3Sw) ∧
    (fieldOpcode 0x0020F463 = Enc.default.opcBranch ∧
      fieldFunct3 0x0020F463 ∉ [Enc.default.f3Beq, Enc.default.f3Bne, Enc.default.f3Blt]) := by decide

/-- Both ends of the range of each width. -/
theorem test_witness_SignedBitsRoundTrip :
    ∀ p ∈ ([(12, -2048), (12, 2047), (13, -4096), (13, 4095), (21, -1048576), (21, 1048575)] : List (Nat × Int)),
      -(2 ^ (p.1 - 1)) ≤ p.2 ∧ p.2 ≤ 2 ^ (p.1 - 1) - 1 ∧ fromSignedBits (toSignedBits p.2 p.1) = p.2 := by decide

/-- Effective addresses at the ends of the admitted range and just outside it, for `lw` and `sw` alike. -/
theorem test_witness_LwLoadsTheContainingWordOrFaults :
    admits State.reset.cfg 0 = true ∧ admits State.reset.cfg 127 = true ∧ admits State.reset.cfg (-1) = false ∧
      admits State.reset.cfg 128 = false ∧ (start 0 [] []).baseDisp 0 0xFFF = -1 ∧ (start 0 [(1, 128)] []).baseDisp 1 0xFFF = 127 := by
  decide

theorem test_witness_SwReplacesTheContainingWordOrFaults :
    (start 0 [(1, 128)] [(5, 7)]).mem.wf ∧ (start 0 [(1, 128)] [(5, 7)]).baseDisp 1 0 = 128 ∧
      (start 0 [(1, 128)] [(5, 7)]).baseDisp 1 0xFFF = 127 := by decide

/-- Each of the three alternatives alone. -/
theorem test_witness_JalrLinksAndJumpsToTheOldBase :
    (start 0 [] []).cfg.jalrAlias = .readFirst ∧ (refusing (start 0 [] [])).cfg.jalrAlias ≠ .readFirst ∧ (1 : RegIdx) ≠ 5 ∧
      linkIsBase 0 0 = false := by decide

theorem test_witness_JalrAliasIsRefusedWhenConfigured :
    (refusing (start 0 [] [])).cfg.jalrAlias = .refuse ∧ (31 : RegIdx) ≠ 0 := by decide

/-- The immediates the first clause of the branch and jump statements is about. -/
theorem test_witness_BeqBranchesWhenEqual :
    (0x1000#13).getLsbD 0 = false ∧ (0xFFE#13).getLsbD 0 = false ∧ ¬ ((1 : RegIdx) = 0 ∧ (0 : RegIdx) = 0 ∧ 0#13 = 0) ∧
      (start 12 [(1, 7)] []).readReg 1 = 7 ∧ (start 12 [(1, 7)] []).readReg 2 = 0 := by decide

theorem test_witness_BneBranchesWhenDifferent : (0#13).getLsbD 0 = false ∧ (0x1FFE#13).getLsbD 0 = false := by decide

theorem test_witness_JalLinksAndJumpsRelative : (0x100000#21).getLsbD 0 = false ∧ (0xFFFFE#21).getLsbD 0 = false := by decide

theorem test_witness_SystemOpcodeHaltsWhateverItsFields :
    fieldOpcode 0x00000073 = 0b1110011#7 ∧ fieldOpcode 0xFFFFFFF3 = 0b1110011#7 := by decide

/-- funct3 010, the least the rule is about, 100 (`blt`) and 111, the greatest. -/
theorem test_witness_OtherBranchFunct3IsAnUnknownBranch : 
    ((placed 0x00002063 0 [] []).Ready ∧ (placed 0x0020C463 0 [] []).Ready ∧ (placed 0x0020F463 0 [] []).Ready) ∧
    ((placed 0x00002063 0 [] []).wordAtPc = 0x00002063 ∧ (placed 0x0020C463 0 [] []).wordAtPc = 0x0020C463 ∧
      (placed 0x0020F463 0 [] []).wordAtPc = 0x0020F463) ∧
    (placed 0x00002063 0 [] []).cfg.enc = Enc.default ∧
    ([0x00002063, 0x0020C463, 0x0020F463].map fun w => (fieldOpcode w, fieldFunct3 w)) =
      [(0b1100011#7, 0b010#3), (0b1100011#7, 0b100#3), (0b1100011#7, 0b111#3)] :=
  ⟨⟨by decide, by decide, by decide⟩, ⟨by decide, by decide, by decide⟩, by decide, by decide⟩

/-- Offsets at both ends of each range, and both register conditions. -/
theorem test_witness_JumpsAndTakenBranchesReachTheirLabel :
    let s := start 0x00200000 [(1, 7)] []
    ((1048576 : Nat) - s.pc.toNat : Int) = -1048576 ∧ ((3145727 : Nat) - s.pc.toNat : Int) = 1048575 ∧
      ((2093056 : Nat) - s.pc.toNat : Int) = -4096 ∧ ((2101247 : Nat) - s.pc.toNat : Int) = 4095 ∧
      s.readReg 1 = s.readReg 1 ∧ s.readReg 1 ≠ s.readReg 2 := by decide

theorem test_witness_WritesToRegisterZeroAreDiscarded :
    (1 : RegIdx) ≠ 0 ∧ ((start 0 [] []).writeReg 31 5).readReg 31 = 5 ∧ ((start 0 [] []).writeReg 0 5).readReg 0 = 0 := by decide

/-- Each of the four ways, and the commit at both ends of its range. -/
theorem test_witness_CommitFaultsExactlyOutside32Bits :
    (∀ p ∈ ([(0xFFDFF06F, 0, -4), (0xFE208CE3, 4, -4), (0xFE009CE3, 4, -4), (0x00808167, 4, 4294967300), (0xFFF00167, 4, -1)] :
      List (Word × Word × Int)),
      sees (step (placed p.1 p.2.1 [(1, 0xFFFFFFFC), (2, 0xFFFFFFFC)] [])) (fun t => t.runState == .faulted (.fetchFault p.2.2)) = true) ∧
    ((start 0 [] []).commit (2 ^ 32 - 1)).runState = .running ∧ ((start 0 [] []).commit 0).runState = .running ∧
      ((start 0 [] []).commit (2 ^ 32)).runState ≠ .running ∧ ((start 0 [] []).commit (-1)).runState ≠ .running := by decide

/-- A misaligned load of the stored word and a load of the next word. -/
theorem test_witness_LoadAfterStoreGetsTheStoredWord :
    ∃ t, exec (.sw 6 5 0) (start 0 [(5, 124), (6, 9)] []) = .next t ∧
      decide (t.mem.wf ∧ t.baseDisp 5 3 = 127 ∧ t.baseDisp 5 (toSignedBits (-1) 12) = 123) = true :=
  exists_of_sees (p := fun t => decide (t.mem.wf ∧ t.baseDisp 5 3 = 127 ∧ t.baseDisp 5 (toSignedBits (-1) 12) = 123)) (by decide)

/-- `sw x1, 4(x0)` at 0 puts the halt word of x1 where the next cycle fetches. -/
theorem test_witness_StoreIsSeenByTheNextFetch :
    (placed 0x00102223 0 [(1, 0x63)] []).mem.wf ∧ (placed 0x00102223 0 [(1, 0x63)] []).Runs (.sw 1 0 4) ∧
      decode Enc.default 0x63 = .instr .halt ∧
      ∃ t, step (placed 0x00102223 0 [(1, 0x63)] []) = .next t ∧ decide t.Ready = true :=
  ⟨by decide, by decide, by decide, exists_of_sees (p := fun t => decide t.Ready) (by decide)⟩

theorem test_witness_StepRunsTheDecodedInstruction : (placed 0x00500513 124 [] []).Runs (.addi 10 0 5) := by decide

theorem test_witness_PlacedWordRunsNext : (start 124 [] []).Ready ∧ (start 124 [] []).mem.wf := by decide

theorem test_witness_UndecodableWordFaultsPrecisely :
    (placed 0 0 [] []).Ready ∧ decode Enc.default (placed 0 0 [] []).wordAtPc = .unknownInstruction (placed 0 0 [] []).wordAtPc ∧
    (placed 0x0020F463 0 [] []).Ready ∧
      decode Enc.default (placed 0x0020F463 0 [] []).wordAtPc = .unknownBranch (placed 0x0020F463 0 [] []).wordAtPc := by decide

/-- A misaligned pc inside memory and the first pc past it. -/
theorem test_witness_BadPcFaultsAtFetch : ∀ s ∈ [start 125 [] [], start 128 [] []],
    s.runState = .running ∧ s.stepCount < s.cfg.stepLimit ∧ s.prevPc ≠ some s.pc ∧
      (s.pc.toNat % 4 ≠ 0 ∨ 4 * s.cfg.memWords ≤ s.pc.toNat) := by decide

theorem test_witness_RepeatedPcStopsBeforeFetch :
    ∃ s : State, s.runState = .running ∧ s.stepCount < s.cfg.stepLimit ∧ s.prevPc = some s.pc :=
  ⟨(start 0 [] []).commit 0, by decide⟩

/-- At the limit and past it. -/
theorem test_witness_StepLimitStopsTheCycle :
    (limited 0 (start 0 [] [])).runState = .running ∧ (limited 0 (start 0 [] [])).cfg.stepLimit ≤ (limited 0 (start 0 [] [])).stepCount ∧
      (limited 0 (start 0 [] []).countCycle).cfg.stepLimit ≤ (limited 0 (start 0 [] []).countCycle).stepCount := by decide

/-- With the limit far away and with the limit reached. -/
theorem test_witness_SelfJumpExecutesOnce : 
    (limited 1 (placed 0x000000EF 0 [] [])).Runs (.jal 1 0) ∧ (limited 2 (placed 0x000000EF 0 [] [])).Runs (.jal 1 0) ∧
    sees (step (limited 1 (placed 0x000000EF 0 [] []))) (fun t => t.runState == .running && t.pc == 0) = true ∧
    sees (step (limited 2 (placed 0x000000EF 0 [] []))) (fun t => t.runState == .running && t.pc == 0) = true :=
  ⟨by decide, by decide, by decide, by decide⟩

theorem test_witness_TerminalStatesNeverChange :
    (start 0 [] []).halt.runState ≠ .running ∧ ((start 0 [] []).raise .stepLimitGuard).runState ≠ .running := by decide

/-- The refused alternative is reached. -/
theorem test_witness_EveryStepAnswersExceptTheRefusedAlias :
    (refusing (placed 0x008080E7 0 [] [])).Runs (.jalr 1 1 8) ∧
      step (refusing (placed 0x008080E7 0 [] [])) = .refused .jalrLinkIsBase := ⟨by decide, rfl⟩

/-- Every cause, and FetchFault both at fetch and at commit, UnknownBranchError both with and without a mnemonic. -/
theorem test_witness_EveryFaultHasItsCause : ∀ p ∈ ([(limited 0 (start 0 [] []), .stepLimitGuard),
    ((start 0 [] []).commit 0, .pcRepeatGuard 0), (start 128 [] [], .fetchFault 128), (placed 0xFFDFF06F 0 [] [], .fetchFault (-4)),
    (start 0 [] [], .unknownInstruction 0), (placed 0x0020C463 0 [] [], .unknownBranch 0x0020C463),
    (placed 0x0020F463 0 [] [], .unknownBranch 0x0020F463), (placed 0x0C802003 0 [] [], .memoryAccess 200),
    (placed 0xFE002E23 0 [] [], .memoryAccess (-4))] : List (State × Cause)),
    p.1.runState = .running ∧ sees (step p.1) (fun t => t.runState == .faulted p.2) = true := by decide

theorem test_witness_HaltedExactlyByTheTwoHaltEncodings : 
    ∀ s ∈ [placed 0x00000063 0 [] [], placed 0xFFFFFFF3 0 [] []],
      s.runState = .running ∧ s.cfg.enc = Enc.default ∧ sees (step s) (fun t => t.runState == .halted) = true := by decide

/-- A fault at commit, after the register write, and one that keeps everything. -/
theorem test_witness_FaultsArePrecise :
    State.reset.cfg.memWords ≤ 536870912 ∧
    sees (step (placed 0xDEADBEEF 0 [] [])) (fun t => t.runState == .faulted (.fetchFault (-150038)) && t.prevPc == some 0) = true ∧
    sees (step (placed 0xFE002E23 0 [] [])) (fun t => t.runState == .faulted (.memoryAccess (-4)) && t.prevPc == none) = true :=
  ⟨by decide, by decide, by decide⟩

theorem test_witness_BookkeepingOfEveryCycle :
    sees (step (placed 0x00500513 0 [] [])) (fun t => t.stepCount == 1 && t.prevPc == some 0 && t.runState == .running) = true ∧
    sees (step ((start 0 [] []).commit 0)) (fun t => t.stepCount == 0 && t.prevPc == some 0) = true := by decide

/-- A store to its own word changes the byte at 0. -/
theorem test_witness_OnlySwChangesMemory :
    (placed 0x00A12023 0 [(10, 42)] []).mem.wf ∧
      sees (step (placed 0x00A12023 0 [(10, 42)] [])) (fun t => t.mem.readByte 0 != (placed 0x00A12023 0 [(10, 42)] []).mem.readByte 0) =
        true := by decide

theorem test_witness_OnlyTheDestinationRegisterChanges :
    sees (step (placed 0x00500513 0 [] [])) (fun t => t.readReg 10 != (placed 0x00500513 0 [] []).readReg 10) = true := by decide

theorem test_witness_NoRunChangesTheConfiguration :
    ∃ t, step (placed 0x00500513 0 [] []) = .next t ∧ decide (t.readReg 10 = 5) = true :=
  exists_of_sees (p := fun t => decide (t.readReg 10 = 5)) (by decide)

/-- A second memory that agrees on the fetched and the loaded word and differs elsewhere. -/
theorem test_witness_StepDependsOnlyOnTheWordsItReads :
    let s := placed 0x0082A303 0 [(5, 4)] [(3, 0xDEADBEEF)]
    let m := (start 0 [] [(0, 0x0082A303), (3, 0xDEADBEEF), (9, 1)]).mem
    s.Runs (.lw 6 5 8) ∧ s.wordAtPc = m.readWord 0 ∧ s.mem.readWord 3 = m.readWord 3 ∧ s.mem.readByte 36 ≠ m.readByte 36 :=
  ⟨by decide, by decide, by decide, by decide⟩

theorem test_witness_InvariantIsKeptByEveryStep :
    (placed 0x00500513 0 [(31, 8)] []).Inv ∧ sees (step (placed 0x00500513 0 [(31, 8)] [])) (fun t => t.readReg 10 == 5) = true :=
  ⟨⟨by decide, by decide, by decide, by decide, by decide, by decide, (fun p h => nomatch h), by decide⟩, by decide⟩

/-- An image that fills memory exactly. -/
theorem test_witness_LaunchPlacesTheImage :
    Config.wf { defaultConfig with memWords := 2 } = true ∧ ([0x00000013, 0x63] : List Word).length ≤ 2 ∧
      (launch { defaultConfig with memWords := 2 } memInitZero [0x00000013, 0x63]).mem.readWord 1 = 0x63 ∧
      (launch { defaultConfig with memWords := 3 } (fun _ => 7) [0x00000013, 0x63]).mem.readWord 2 = 7 := by decide

/-- 70 R191: the same configuration and image meet the hypotheses about every launch. -/
theorem test_witness_InvariantHoldsAtEveryLaunch :
    Config.wf { defaultConfig with memWords := 1 } = true ∧ ([0x63] : List Word).length ≤ 1 := by decide

theorem test_witness_LineCharactersAreTheBitsOfTheWord :
    lineV1.length = 32 ∧ ∀ j < 32, lineV1[j]? = some (if (0x00500513#32).getLsbD (31 - j) then '1' else '0') := by decide

/-- A bad line, a trailing blank line (log 21), one line too many, an image that just fits, and an empty one (log 16). -/
theorem test_witness_LoadAbortsExactlyOnBadLinesOrSize :
    parseLine [] = none ∧ loadProgram defaultConfig memInitZero [lineV1, []] = .error (.malformedLine 1) ∧
      { defaultConfig with memWords := 1 }.memWords < [lineV1, lineV1].length ∧
      loadProgram { defaultConfig with memWords := 1 } memInitZero [lineV1] =
        .machine (launch { defaultConfig with memWords := 1 } memInitZero [0x00500513]) ∧
      loadProgram { defaultConfig with memWords := 1 } memInitZero [] =
        .machine (launch { defaultConfig with memWords := 1 } memInitZero []) := by decide

theorem test_witness_RegisterZeroIsZeroAfterAnyRun :
    (placed 0x00500013 0 [] []).regs[(0 : Fin 32)] = 0 ∧ ∃ t, step (placed 0x00500013 0 [] []) = .next t ∧ decide (t.pc = 4) = true :=
  ⟨by decide, exists_of_sees (p := fun t => decide (t.pc = 4)) (by decide)⟩

theorem test_witness_EveryRunEndsWithinTheStepLimit : (placed 0x000000EF 0 [] []).cfg.jalrAlias = .readFirst := by decide

theorem test_witness_OneTraceLinePerCompletedCycle :
    sees (step2 (placed 0x00100513 0 [] [(1, 0x00150513)])) (fun t => t.runState == .running) = true ∧
      (runTrace .current 2 (placed 0x00100513 0 [] [(1, 0x00150513)])).1.length = 2 := by decide

/-- The three ends that write a line and one that does not; under TRACE_PC = next the kept pc 8 of a halting cycle and the truncation
of the next pc -4 (log 22). -/
theorem test_witness_TraceLineExactlyOnNextOrHalt :
    sees (step (placed 0x00500513 0 [] [])) (fun t => (traceRecord .current (placed 0x00500513 0 [] []) t).isSome) = true ∧
    sees (step (placed 0x00000063 0 [] [])) (fun t => (traceRecord .current (placed 0x00000063 0 [] []) t).isSome) = true ∧
    sees (step (placed 0xFFDFF06F 0 [] [])) (fun t => (traceRecord .current (placed 0xFFDFF06F 0 [] []) t).isSome) = true ∧
    sees (step (placed 0x00500513 0 [] [])) (fun t => (traceRecord .next (placed 0x00500513 0 [] []) t).map (·.pc) == some 4) = true ∧
    sees (step (placed 0x00000063 8 [] [])) (fun t => (traceRecord .next (placed 0x00000063 8 [] []) t).map (·.pc) == some 8) = true ∧
    sees (step (placed 0xFFDFF06F 0 [] []))
      (fun t => (traceRecord .next (placed 0xFFDFF06F 0 [] []) t).map (·.pc) == some 0xFFFFFFFC) = true ∧
    sees (step (placed 0 0 [] [])) (fun t => (traceRecord .current (placed 0 0 [] []) t).isNone && t.runState != .running) = true :=
  ⟨by decide, by decide, by decide, by decide, by decide, by decide, by decide⟩

end Sys2Proof.Tests
end

/-! PROOFS. Registers, the write primitive and the commit (10_state.md): what the register-writing instructions do, said once per
instruction, and the frame of a commit and of a fault in the vocabulary of the claims. -/

namespace Sys2Proof.Machine

variable (s : State) (rd rs1 rs2 : RegIdx) (n : Int)

/-! ### The register-writing instructions (41 R111 to R116, 42 R121 to R123, 45 R146) -/

@[simp] theorem exec_add : exec (.add rd rs1 rs2) s =
    .next ((s.writeReg rd (alu .add (s.readReg rs1) (s.readReg rs2))).commit s.sequential) := rfl
@[simp] theorem exec_sub : exec (.sub rd rs1 rs2) s =
    .next ((s.writeReg rd (alu .sub (s.readReg rs1) (s.readReg rs2))).commit s.sequential) := rfl
@[simp] theorem exec_slt : exec (.slt rd rs1 rs2) s =
    .next ((s.writeReg rd (alu .slt (s.readReg rs1) (s.readReg rs2))).commit s.sequential) := rfl
@[simp] theorem exec_srl : exec (.srl rd rs1 rs2) s =
    .next ((s.writeReg rd (alu .srl (s.readReg rs1) (s.readReg rs2))).commit s.sequential) := rfl
@[simp] theorem exec_or : exec (.or rd rs1 rs2) s =
    .next ((s.writeReg rd (alu .or (s.readReg rs1) (s.readReg rs2))).commit s.sequential) := rfl
@[simp] theorem exec_and : exec (.and rd rs1 rs2) s =
    .next ((s.writeReg rd (alu .and (s.readReg rs1) (s.readReg rs2))).commit s.sequential) := rfl
@[simp] theorem exec_addi (imm : BitVec 12) : exec (.addi rd rs1 imm) s =
    .next ((s.writeReg rd (alu .add (s.readReg rs1) (immOperand imm))).commit s.sequential) := rfl
@[simp] theorem exec_jal (imm : BitVec 21) : exec (.jal rd imm) s =
    .next ((s.writeReg rd s.link).commit (s.pcRelative imm)) := rfl

/-- `jalr` has a meaning in every form but rd = rs1 != 0 (U6, D10, log 7). -/
theorem exec_jalr_of_not_linkIsBase (imm : BitVec 12) (h : linkIsBase rd rs1 = false) :
    exec (.jalr rd rs1 imm) s = .next ((s.writeReg rd s.link).commit (s.baseDisp rs1 imm)) :=
  if_neg fun hr => by simp [h] at hr

@[simp] theorem linkIsBase_zero : linkIsBase 0#5 rs1 = false := by simp [linkIsBase]

/-- A load whose address is admitted writes the containing word. -/
theorem exec_lw_of_admits (imm : BitVec 12) (h : admits s.cfg (s.baseDisp rs1 imm) = true) :
    exec (.lw rd rs1 imm) s =
      .next ((s.writeReg rd (s.mem.readWord (wordIndex (s.baseDisp rs1 imm)))).commit s.sequential) := by
  simp [exec, execLw, State.memRead, h]

/-- A load whose address is not admitted faults (20 R43). -/
theorem exec_lw_of_not_admits (imm : BitVec 12) (h : ¬ admits s.cfg (s.baseDisp rs1 imm) = true) :
    exec (.lw rd rs1 imm) s = .next (s.raise (.memoryAccess (s.baseDisp rs1 imm))) := by
  simp [exec, execLw, State.memRead, h]

/-! ### The commit and the fault in the vocabulary of the claims (10 R27, 60 R163) -/

theorem State.committed_commit : Committed s (s.commit n) n :=
  ⟨by simp, by simp [trunc32], by simp only [State.commit_runState, inWordRange_iff]⟩

theorem State.stopsAs_raise (c : Cause) : StopsAs s (s.raise c) (.faulted c) :=
  ⟨rfl, fun _ => rfl, fun _ => rfl, rfl, rfl, rfl, rfl⟩

variable {s n} {i : Instr}

/-- An instruction that only commits its next pc changes nothing else. -/
theorem completesMoving_of_exec (h : exec i s = .next (s.commit n)) : CompletesMoving i s n :=
  ⟨_, h, fun _ => by simp, fun _ => by simp, s.committed_commit n, by simp, by simp⟩

theorem endsAs_of_exec_raise {c : Cause} (h : exec i s = .next (s.raise c)) : EndsAs i s (.faulted c) :=
  ⟨_, h, s.stopsAs_raise c⟩

/-! ### Register 0 (10 R22) -/

/-- The seven sequential writers with rd = 0 do nothing but go on to the next instruction. -/
theorem exec_sequential_zero (s : State) (rs1 rs2 : RegIdx) (imm : BitVec 12) :
    ∀ i ∈ [Instr.add 0 rs1 rs2, .sub 0 rs1 rs2, .slt 0 rs1 rs2, .srl 0 rs1 rs2, .or 0 rs1 rs2, .and 0 rs1 rs2, .addi 0 rs1 imm],
      exec i s = .next (s.commit s.sequential) := by
  simp

/-- `lw` with rd = 0 goes on to the next instruction when its address is admitted, and faults otherwise (42 R122, D9). -/
theorem lw_zero_completes_or_faults (s : State) (rs1 : RegIdx) (imm : BitVec 12) :
    if 0 ≤ s.baseDisp rs1 imm ∧ s.baseDisp rs1 imm < 4 * s.cfg.memWords then CompletesMoving (.lw 0 rs1 imm) s s.sequential
    else EndsAs (.lw 0 rs1 imm) s (.faulted (.memoryAccess (s.baseDisp rs1 imm))) := by
  simp only [← admits_iff]
  split
  · next h => exact completesMoving_of_exec (exec_lw_of_admits s 0 rs1 imm h)
  · next h => exact endsAs_of_exec_raise (exec_lw_of_not_admits s 0 rs1 imm h)

/-- Settles O26: the write primitive is `readReg_writeReg` and `writeReg_zero`; with rd = 0 each of the ten writers is its commit
alone, but for the load that faults. -/
theorem writesToRegisterZeroAreDiscarded : Obligations.WritesToRegisterZeroAreDiscarded := by
  refine ⟨fun s i v hi => ⟨?_, fun r hr => ?_⟩, State.writeReg_zero, fun s rs1 rs2 imm off => ⟨fun i hi => ?_, ?_, ?_, ?_⟩⟩
  · rw [State.readReg_writeReg, if_pos rfl, if_neg hi]
  · rw [State.readReg_writeReg, if_neg hr]
  · exact completesMoving_of_exec (exec_sequential_zero s rs1 rs2 imm i hi)
  · exact completesMoving_of_exec (exec_jal s 0 off)
  · exact completesMoving_of_exec (exec_jalr_of_not_linkIsBase s 0 rs1 imm (linkIsBase_zero rs1))
  · exact lw_zero_completes_or_faults s rs1 imm

end Sys2Proof.Machine

/-! PROOFS. The codec law of the immediates (30_encoding.md R68): what the two signed-bits functions are, and that the B and J
encoders drop bit 0 of the immediate and nothing else. -/

namespace Sys2Proof

/-! ### The signed codec (30 R68, 00 R11) -/

theorem toNat_toSignedBits (v : Int) (w : Nat) : ((toSignedBits v w).toNat : Int) = v % 2 ^ w := by
  rw [toSignedBits, BitVec.toNat_ofInt, Int.toNat_of_nonneg (Int.emod_nonneg v (by positivity))]
  push_cast
  rfl

/-- Complementing, adding 1 and negating subtracts `2 ^ w`: the document's reading is the two's-complement one. -/
theorem fromSignedBits_eq_toInt {w : Nat} (b : BitVec w) : fromSignedBits b = b.toInt := by
  have hlt : b.toNat < 2 ^ w := b.isLt
  rw [fromSignedBits, BitVec.toInt_eq_msb_cond, BitVec.toNat_not]
  split <;> omega

theorem fromSignedBits_toSignedBits {v : Int} {w : Nat} (hw : 0 < w) (hlo : -(2 ^ (w - 1)) ≤ v) (hhi : v ≤ 2 ^ (w - 1) - 1) :
    fromSignedBits (toSignedBits v w) = v := by
  rw [fromSignedBits_eq_toInt]
  exact BitVec.toInt_ofInt_eq_self hw hlo (Int.lt_of_le_sub_one hhi)

/-! ### The scattered immediates (30 R65, R66) -/

variable (rs2 rs1 rd : RegIdx) (f3 : BitVec 3) (opc : BitVec 7)

theorem getLsbD_zero_append_zero {n : Nat} (x : BitVec n) : (x ++ 0#1).getLsbD 0 = false := by
  rw [BitVec.getLsbD_append]
  rfl

/-- Clearing bit 0 changes no slice that starts above it. -/
theorem extractLsb'_clearBit0 {n k m : Nat} (imm : BitVec (n + 1)) (hk : 1 ≤ k) :
    (imm.extractLsb' 1 n ++ 0#1).extractLsb' k m = imm.extractLsb' k m := by
  rw [BitVec.extractLsb'_append_eq_of_le hk]
  apply BitVec.eq_of_getLsbD_eq
  intro i hi
  have hbit : 1 + (k - 1 + i) = k + i := by omega
  simp only [BitVec.getLsbD_extractLsb', hbit]
  by_cases hin : k - 1 + i < n
  · simp [hin]
  · have hout : imm.getLsbD (k + i) = false := BitVec.getLsbD_of_ge imm _ (by omega)
    simp [hout]

/-- The B encoder does not read bit 0 of the immediate. -/
theorem encodeB_clearBit0 (imm : BitVec 13) :
    encodeB (imm.extractLsb' 1 12 ++ 0#1) rs2 rs1 f3 opc = encodeB imm rs2 rs1 f3 opc := by
  simp only [encodeB, extractLsb'_clearBit0 (n := 12), Nat.reduceLeDiff]

/-- The J encoder does not read bit 0 of the immediate. -/
theorem encodeJ_clearBit0 (imm : BitVec 21) : encodeJ (imm.extractLsb' 1 20 ++ 0#1) rd opc = encodeJ imm rd opc := by
  simp only [encodeJ, extractLsb'_clearBit0 (n := 20), Nat.reduceLeDiff]

/-- Settles O6: the signed codec is the two's-complement one, and the B and J encoders give a value and the same value with bit 0
cleared one word, from which the decoder gathers the even value back (`immB_encodeB`, `immJ_encodeJ`). -/
theorem signedBitsRoundTrip : Obligations.SignedBitsRoundTrip := by
  refine ⟨fun v w hw hlo hhi => ⟨toNat_toSignedBits v w, ?_⟩, fun imm rs2 rs1 f3 opc => ?_, fun imm rd opc => ?_⟩
  · have hpos : 0 < w := by omega
    exact fromSignedBits_toSignedBits hpos hlo hhi
  · rw [← encodeB_clearBit0, immB_encodeB _ _ _ _ _ (getLsbD_zero_append_zero _)]
  · rw [← encodeJ_clearBit0, immJ_encodeJ _ _ _ (getLsbD_zero_append_zero _)]

end Sys2Proof

/-! PROOFS. The R-type executor (41_r_type_alu.md): the six instructions are one instruction in the ALU operation, so decoding and
execution are each said once; what is left of a claim is what the ALU answers (40_decode_dispatch.md R99). -/

namespace Sys2Proof

/-! ### Unambiguous tables and the R class (30 R71, 40 R91) -/

/-- The three lists of codes that an unambiguous table keeps free of repetitions (00 R8, 40 R91). -/
theorem Enc.wf_iff (e : Enc) : e.wf = true ↔
    [e.opcOp, e.opcOpimm, e.opcLoad, e.opcJalr, e.opcStore, e.opcBranch, e.opcJal, e.opcSystem].Nodup ∧
    [(e.f3AddSub, e.f7Base), (e.f3AddSub, e.f7Alt), (e.f3Slt, e.f7Base), (e.f3Srl, e.f7Base), (e.f3Or, e.f7Base),
      (e.f3And, e.f7Base)].Nodup ∧
    [e.f3Beq, e.f3Bne, e.f3Blt].Nodup := by
  simp only [Enc.wf, Bool.and_eq_true, decide_eq_true_eq, and_assoc]

/-- A word of opcode OPC_OP is of the R class. -/
theorem decode_eq_selectR {e : Enc} {w : Word} (he : e.wf = true) (hw : fieldOpcode w = e.opcOp) :
    decode e w = selectR e w := by
  obtain ⟨hopcodes, -, -⟩ := (Enc.wf_iff e).mp he
  have hsys : e.opcOp ≠ e.opcSystem := fun h => by simp [h] at hopcodes
  simp [decode, classify, hw, hsys]

end Sys2Proof

namespace Sys2Proof.Machine

/-- The instruction that applies an ALU operation to two registers (41 R110). -/
def AluOp.toInstr : AluOp → RegIdx → RegIdx → RegIdx → Instr
  | .add => .add
  | .sub => .sub
  | .and => .and
  | .or  => .or
  | .srl => .srl
  | .slt => .slt

/-! ### Decoding (30 R71) -/

/-- The six (funct3, funct7) pairs are distinct, so `selectR` finds the one the instruction was encoded with. -/
theorem decode_encode_toInstr {e : Enc} (he : e.wf = true) (op : AluOp) (rd rs1 rs2 : RegIdx) :
    decode e (encode e (op.toInstr rd rs1 rs2)) = .instr (op.toInstr rd rs1 rs2) := by
  have hop : fieldOpcode (encode e (op.toInstr rd rs1 rs2)) = e.opcOp := by
    cases op <;> exact fieldOpcode_encodeR ..
  rw [decode_eq_selectR he hop]
  obtain ⟨-, hpairs, -⟩ := (Enc.wf_iff e).mp he
  simp only [List.nodup_cons, List.mem_cons, Prod.mk.injEq, not_or] at hpairs
  cases op <;> simp [AluOp.toInstr, encode, selectR] <;> grind

/-! ### Execution (41 R110) -/

theorem exec_toInstr (op : AluOp) (rd rs1 rs2 : RegIdx) (s : State) :
    exec (op.toInstr rd rs1 rs2) s =
      .next ((s.writeReg rd (alu op (s.readReg rs1) (s.readReg rs2))).commit s.sequential) := by
  cases op <;> rfl

/-- Writing one register and going on to the next instruction has the frame the claims ask for. -/
theorem completesWriting_of_exec {i : Instr} {s : State} {rd : RegIdx} {v : Word}
    (h : exec i s = .next ((s.writeReg rd v).commit s.sequential)) : CompletesWriting i s rd v := by
  refine ⟨_, h, ⟨?_, fun r hr => ?_⟩, fun a => by simp, ?_, by simp, by simp⟩
  · rw [State.commit_readReg, State.readReg_writeReg, if_pos rfl]
  · rw [State.commit_readReg, State.readReg_writeReg, if_neg hr]
  · simpa [Committed, State.sequential] using (s.writeReg rd v).committed_commit s.sequential

/-- Every R-type instruction completes with the ALU's answer in `rd`. -/
theorem completesWriting_alu (op : AluOp) (rd rs1 rs2 : RegIdx) (s : State) :
    CompletesWriting (op.toInstr rd rs1 rs2) s rd (alu op (s.readReg rs1) (s.readReg rs2)) :=
  completesWriting_of_exec (exec_toInstr op rd rs1 rs2 s)

/-! ### What the ALU answers (40 R99) -/

variable (a b : Word)

theorem toNat_trunc32 (z : Int) : ((trunc32 z).toNat : Int) = z % 2 ^ 32 := toNat_toSignedBits z 32

theorem toNat_alu_add : (alu .add a b).toNat = (a.toNat + b.toNat) % 2 ^ 32 := by
  have h : ((alu .add a b).toNat : Int) = (a.toNat + b.toNat : Int) % 2 ^ 32 := toNat_trunc32 _
  exact_mod_cast h

theorem toNat_alu_sub : ((alu .sub a b).toNat : Int) = (a.toNat - b.toNat : Int) % 2 ^ 32 := toNat_trunc32 _

theorem alu_slt_of_lt {a b : Word} (h : a.toInt < b.toInt) : alu .slt a b = 1 := if_pos h

theorem alu_slt_of_le {a b : Word} (h : b.toInt ≤ a.toInt) : alu .slt a b = 0 := if_neg (Int.not_lt.mpr h)

theorem toNat_alu_srl : (alu .srl a b).toNat = a.toNat / 2 ^ (b.toNat % 32) := by
  rw [alu, BitVec.toNat_ushiftRight, Nat.shiftRight_eq_div_pow]

theorem getLsbD_alu_or (i : Nat) : (alu .or a b).getLsbD i = (a.getLsbD i || b.getLsbD i) := BitVec.getLsbD_or

theorem getLsbD_alu_and (i : Nat) : (alu .and a b).getLsbD i = (a.getLsbD i && b.getLsbD i) := BitVec.getLsbD_and

/-! ### The claims (41 R111 to R116) -/

/-- Settles O7: the ALU's sum is exact before it is truncated. -/
theorem addWritesTheSumModulo32Bits : Obligations.AddWritesTheSumModulo32Bits := fun rd rs1 rs2 =>
  ⟨fun _ he => decode_encode_toInstr he .add rd rs1 rs2,
   fun s => ⟨_, toNat_alu_add _ _, completesWriting_alu .add rd rs1 rs2 s⟩⟩

/-- Settles O8: the ALU's difference is the integer one before it is truncated. -/
theorem subWritesTheDifferenceModulo32Bits : Obligations.SubWritesTheDifferenceModulo32Bits := fun rd rs1 rs2 =>
  ⟨fun _ he => decode_encode_toInstr he .sub rd rs1 rs2,
   fun s => ⟨_, toNat_alu_sub _ _, completesWriting_alu .sub rd rs1 rs2 s⟩⟩

/-- Settles O9: the ALU compares the two's-complement readings. -/
theorem sltWritesTheSignedComparison : Obligations.SltWritesTheSignedComparison := fun rd rs1 rs2 =>
  ⟨fun _ he => decode_encode_toInstr he .slt rd rs1 rs2,
   fun s => ⟨_, alu_slt_of_lt, alu_slt_of_le, completesWriting_alu .slt rd rs1 rs2 s⟩⟩

/-- Settles O10: a logical right shift is floor division by a power of 2. -/
theorem srlWritesTheLogicalRightShift : Obligations.SrlWritesTheLogicalRightShift := fun rd rs1 rs2 =>
  ⟨fun _ he => decode_encode_toInstr he .srl rd rs1 rs2,
   fun s => ⟨_, toNat_alu_srl _ _, completesWriting_alu .srl rd rs1 rs2 s⟩⟩

/-- Settles O11: the ALU's or is the bitwise one. -/
theorem orWritesTheBitwiseOr : Obligations.OrWritesTheBitwiseOr := fun rd rs1 rs2 =>
  ⟨fun _ he => decode_encode_toInstr he .or rd rs1 rs2,
   fun s => ⟨_, fun i _ => getLsbD_alu_or _ _ i, completesWriting_alu .or rd rs1 rs2 s⟩⟩

/-- Settles O12: the ALU's and is the bitwise one. -/
theorem andWritesTheBitwiseAnd : Obligations.AndWritesTheBitwiseAnd := fun rd rs1 rs2 =>
  ⟨fun _ he => decode_encode_toInstr he .and rd rs1 rs2,
   fun s => ⟨_, fun i _ => getLsbD_alu_and _ _ i, completesWriting_alu .and rd rs1 rs2 s⟩⟩

end Sys2Proof.Machine

/-! PROOFS. addi (42_i_type.md R121): the I class under an unambiguous table, and that adding the sign-extended immediate modulo
2^32 is adding the signed one. -/

namespace Sys2Proof

/-! ### The I class (30 R72, 40 R91) -/

/-- A word of opcode OPC_OPIMM, OPC_LOAD or OPC_JALR is of the I class. -/
theorem decode_eq_selectI {e : Enc} {w : Word} (he : e.wf = true)
    (hw : fieldOpcode w = e.opcOpimm ∨ fieldOpcode w = e.opcLoad ∨ fieldOpcode w = e.opcJalr) :
    decode e w = selectI e w := by
  obtain ⟨hopcodes, -, -⟩ := (Enc.wf_iff e).mp he
  simp only [List.nodup_cons, List.mem_cons, not_or] at hopcodes
  have hsys : fieldOpcode w ≠ e.opcSystem := by grind
  have hop : fieldOpcode w ≠ e.opcOp := by grind
  have hclass : classify e w = .I := by
    rw [classify, if_neg hsys, if_neg hop]
    rcases hw with hw | hw | hw <;> simp [hw]
  rw [decode, hclass]

/-- `selectI` tries OPC_OPIMM first, so no other row of the class can shadow addi. -/
theorem decode_encode_addi {e : Enc} (he : e.wf = true) (rd rs1 : RegIdx) (imm : BitVec 12) :
    decode e (encode e (.addi rd rs1 imm)) = .instr (.addi rd rs1 imm) := by
  have hopimm : fieldOpcode (encode e (.addi rd rs1 imm)) = e.opcOpimm := fieldOpcode_encodeI ..
  rw [decode_eq_selectI he (.inl hopimm)]
  simp [encode, selectI]

end Sys2Proof

namespace Sys2Proof.Machine

/-! ### The immediate as an operand (30 R67, 40 R93) -/

theorem toNat_immOperand (imm : BitVec 12) : ((immOperand imm).toNat : Int) = imm.toInt % 2 ^ 32 :=
  toNat_toSignedBits imm.toInt 32

/-- The operand and the signed immediate differ by a multiple of 2^32, which the truncated sum does not see. -/
theorem toNat_alu_add_immOperand (a : Word) (imm : BitVec 12) :
    ((alu .add a (immOperand imm)).toNat : Int) = (a.toNat + imm.toInt : Int) % 2 ^ 32 := by
  rw [alu, toNat_trunc32, toNat_immOperand, Int.add_emod_emod]

/-! ### The claim (42 R121) -/

/-- Settles O13: the ALU's sum with the sign-extended immediate is the sum with the signed one. -/
theorem addiWritesTheSumWithTheSignedImmediate : Obligations.AddiWritesTheSumWithTheSignedImmediate := fun rd rs1 imm =>
  ⟨fun _ he => decode_encode_addi he rd rs1 imm,
   fun s => ⟨_, toNat_alu_add_immOperand _ _, completesWriting_of_exec (exec_addi s rd rs1 imm)⟩⟩

end Sys2Proof.Machine

/-! PROOFS. beq and bne (44_b_type.md R137, R138): the B class under an unambiguous table, where only the halt fields keep a word with
F3_BEQ from being a beq, and that a branch commits one of two next program counters and does nothing else. -/

namespace Sys2Proof

/-! ### The B class (30 R74, 40 R91) -/

/-- A word of opcode OPC_BRANCH is of the B class. -/
theorem decode_eq_selectB {e : Enc} {w : Word} (he : e.wf = true) (hw : fieldOpcode w = e.opcBranch) :
    decode e w = selectB e w := by
  obtain ⟨hopcodes, -, -⟩ := (Enc.wf_iff e).mp he
  simp only [List.nodup_cons, List.mem_cons, not_or] at hopcodes
  have hclass : classify e w = .B := by
    have hopcode := classify_opcode e w
    cases h : classify e w <;> grind
  rw [decode, hclass]

theorem haltFields_iff (rs1 rs2 : RegIdx) (imm : BitVec 13) :
    haltFields rs1 rs2 imm = true ↔ rs1 = 0 ∧ rs2 = 0 ∧ imm = 0 := by
  simp [haltFields, and_assoc]

variable {e : Enc} (he : e.wf = true) {rs1 rs2 : RegIdx} {imm : BitVec 13} (heven : imm.getLsbD 0 = false)
include he heven

/-- The halt test comes first, so the fields of the halt encoding are the one exception. -/
theorem decode_encode_beq (hhalt : ¬ (rs1 = 0 ∧ rs2 = 0 ∧ imm = 0)) :
    decode e (encode e (.beq rs1 rs2 imm)) = .instr (.beq rs1 rs2 imm) := by
  have hbranch : fieldOpcode (encode e (.beq rs1 rs2 imm)) = e.opcBranch := fieldOpcode_encodeB ..
  rw [decode_eq_selectB he hbranch]
  simp [encode, selectB, immB_encodeB _ _ _ _ _ heven, mt (haltFields_iff rs1 rs2 imm).mp hhalt]

/-- F3_BNE differs from F3_BEQ, so no word of it meets the halt test. -/
theorem decode_encode_bne : decode e (encode e (.bne rs1 rs2 imm)) = .instr (.bne rs1 rs2 imm) := by
  have hbranch : fieldOpcode (encode e (.bne rs1 rs2 imm)) = e.opcBranch := fieldOpcode_encodeB ..
  obtain ⟨-, -, hcodes⟩ := (Enc.wf_iff e).mp he
  have hbeq : e.f3Bne ≠ e.f3Beq := fun h => by simp [h] at hcodes
  rw [decode_eq_selectB he hbranch]
  simp [encode, selectB, immB_encodeB _ _ _ _ _ heven, hbeq]

end Sys2Proof

namespace Sys2Proof.Machine

variable (s : State) (rs1 rs2 : RegIdx) (imm : BitVec 13)

/-! ### Execution (44 R135) -/

@[simp] theorem exec_beq : exec (.beq rs1 rs2 imm) s =
    .next (s.commit (if s.readReg rs1 = s.readReg rs2 then s.pcRelative imm else s.sequential)) := by
  simp [exec, execBeq, execBranch, taken]

@[simp] theorem exec_bne : exec (.bne rs1 rs2 imm) s =
    .next (s.commit (if s.readReg rs1 ≠ s.readReg rs2 then s.pcRelative imm else s.sequential)) := by
  simp [exec, execBne, execBranch, taken]

/-! ### The claims (44 R137, R138) -/

/-- Settles O18: the word is `encode` of the beq, and the beq is its commit alone. -/
theorem beqBranchesWhenEqual : Obligations.BeqBranchesWhenEqual := fun rs1 rs2 imm =>
  ⟨fun _ he heven hhalt => decode_encode_beq he heven hhalt,
   fun s => completesMoving_of_exec (exec_beq s rs1 rs2 imm)⟩

/-- Settles O19: the word is `encode` of the bne, and the bne is its commit alone. -/
theorem bneBranchesWhenDifferent : Obligations.BneBranchesWhenDifferent := fun rs1 rs2 imm =>
  ⟨fun _ he heven => decode_encode_bne he heven,
   fun s => completesMoving_of_exec (exec_bne s rs1 rs2 imm)⟩

end Sys2Proof.Machine

/-! PROOFS. jal (45_j_type.md R146): the J class under an unambiguous table, and what writing the link and committing any next pc
leaves unchanged. -/

namespace Sys2Proof

/-! ### The J class (30 R75, 40 R91) -/

/-- A word of opcode OPC_JAL is of the J class, whose only instruction is jal. -/
theorem decode_eq_jal {e : Enc} {w : Word} (he : e.wf = true) (hw : fieldOpcode w = e.opcJal) :
    decode e w = .instr (.jal (fieldRd w) (immJ w)) := by
  obtain ⟨hopcodes, -, -⟩ := (Enc.wf_iff e).mp he
  simp only [List.nodup_cons, List.mem_cons, not_or] at hopcodes
  have hclass : classify e w = .J := by
    have hopcode := classify_opcode e w
    cases h : classify e w <;> grind
  rw [decode, hclass]

/-- Only bit 0 of the offset is not stored in the word. -/
theorem decode_encode_jal {e : Enc} (he : e.wf = true) (rd : RegIdx) {imm : BitVec 21} (heven : imm.getLsbD 0 = false) :
    decode e (encode e (.jal rd imm)) = .instr (.jal rd imm) := by
  have hjal : fieldOpcode (encode e (.jal rd imm)) = e.opcJal := fieldOpcode_encodeJ ..
  rw [decode_eq_jal he hjal, encode, fieldRd_encodeJ, immJ_encodeJ _ _ _ heven]

end Sys2Proof

namespace Sys2Proof.Machine

/-! ### The link (40 R100, 41 R117) -/

theorem State.link_eq_ofNat (s : State) : s.link = BitVec.ofNat 32 (s.pc.toNat + 4) :=
  BitVec.ofInt_natCast 32 (s.pc.toNat + 4)

/-- Writing the link and committing `n` has the frame the claims ask for, whatever `n` is. -/
theorem completesLinking_of_exec {i : Instr} {s : State} {rd : RegIdx} {n : Int}
    (h : exec i s = .next ((s.writeReg rd s.link).commit n)) : CompletesLinking i s rd n := by
  refine ⟨_, h, ⟨?_, fun r hr => ?_⟩, fun a => by simp, ?_, by simp, by simp⟩
  · rw [State.commit_readReg, State.readReg_writeReg, if_pos rfl, State.link_eq_ofNat]
  · rw [State.commit_readReg, State.readReg_writeReg, if_neg hr]
  · simpa [Committed] using (s.writeReg rd s.link).committed_commit n

/-! ### The claim (45 R146) -/

/-- Settles O20: the word is `encode` of the jal, and the jal is its link and its commit. -/
theorem jalLinksAndJumpsRelative : Obligations.JalLinksAndJumpsRelative := fun rd imm =>
  ⟨fun _ he heven => decode_encode_jal he rd heven,
   fun s => completesLinking_of_exec (exec_jal s rd imm)⟩

end Sys2Proof.Machine

/-! PROOFS. Terminal run states (10 R32, 60 R170): a state whose step answers that same state is where every run from it ends. -/

namespace Sys2Proof.Machine

/-- A state that one step keeps, any number of steps keeps. -/
theorem run_of_step_eq_self {s : State} (h : step s = .next s) : ∀ n : Nat, Host.Core.run core n s = .next s
  | 0 => run_zero s
  | n + 1 => (run_succ_of_next n h).trans (run_of_step_eq_self h n)

/-! ### The claim (60 R170) -/

/-- Settles O37: a step from Halted or Faulted answers the same state (10 R32, log 6), so by induction on their number all steps
do. -/
theorem terminalStatesNeverChange : Obligations.TerminalStatesNeverChange := fun n _ hterminal =>
  run_of_step_eq_self (step_of_not_running hterminal) n

end Sys2Proof.Machine

/-! PROOFS. Decoder and encoder (30_encoding.md R83, 40_decode_dispatch.md R102): the classes not met before (S, SYS and the rest of
I and B) under an unambiguous table, the round trip both ways, and the codes that no row of the table lists. -/

namespace Sys2Proof

/-! ### The S, SYS and UNKNOWN classes (40 R91) -/

/-- A word of opcode OPC_STORE is of the S class. -/
theorem decode_eq_selectS {e : Enc} {w : Word} (he : e.wf = true) (hw : fieldOpcode w = e.opcStore) :
    decode e w = selectS e w := by
  obtain ⟨hopcodes, -, -⟩ := (Enc.wf_iff e).mp he
  simp only [List.nodup_cons, List.mem_cons, not_or] at hopcodes
  have hclass : classify e w = .S := by
    have hopcode := classify_opcode e w
    cases h : classify e w <;> grind
  rw [decode, hclass]

/-- OPC_SYSTEM is tested first, so no other code of the table can shadow it. -/
theorem decode_eq_haltSys {e : Enc} {w : Word} (hw : fieldOpcode w = e.opcSystem) :
    decode e w = .instr (.haltSys (fieldIgnored w)) := by
  rw [decode, classify, if_pos hw]

theorem decode_of_opcode_not_mem {e : Enc} {w : Word}
    (hw : fieldOpcode w ∉ [e.opcOp, e.opcOpimm, e.opcLoad, e.opcJalr, e.opcStore, e.opcBranch, e.opcJal, e.opcSystem]) :
    decode e w = .unknownInstruction w := by
  simp only [List.mem_cons, List.not_mem_nil, not_or] at hw
  have hclass : classify e w = .UNKNOWN := by simp [classify, hw]
  rw [decode, hclass]

/-! ### Decoding the encoded word (40 R102) -/

section
variable {e : Enc} (he : e.wf = true)
include he

theorem decode_encode_lw (rd rs1 : RegIdx) (imm : BitVec 12) :
    decode e (encode e (.lw rd rs1 imm)) = .instr (.lw rd rs1 imm) := by
  have hload : fieldOpcode (encode e (.lw rd rs1 imm)) = e.opcLoad := fieldOpcode_encodeI ..
  obtain ⟨hopcodes, -, -⟩ := (Enc.wf_iff e).mp he
  have hopimm : e.opcLoad ≠ e.opcOpimm := fun h => by simp [h] at hopcodes
  rw [decode_eq_selectI he (.inr (.inl hload))]
  simp [encode, selectI, hopimm]

theorem decode_encode_jalr (rd rs1 : RegIdx) (imm : BitVec 12) :
    decode e (encode e (.jalr rd rs1 imm)) = .instr (.jalr rd rs1 imm) := by
  have hjalr : fieldOpcode (encode e (.jalr rd rs1 imm)) = e.opcJalr := fieldOpcode_encodeI ..
  obtain ⟨hopcodes, -, -⟩ := (Enc.wf_iff e).mp he
  have hopimm : e.opcJalr ≠ e.opcOpimm := fun h => by simp [h] at hopcodes
  have hload : e.opcJalr ≠ e.opcLoad := fun h => by simp [h] at hopcodes
  rw [decode_eq_selectI he (.inr (.inr hjalr))]
  simp [encode, selectI, hopimm, hload]

theorem decode_encode_sw (rs2 rs1 : RegIdx) (imm : BitVec 12) :
    decode e (encode e (.sw rs2 rs1 imm)) = .instr (.sw rs2 rs1 imm) := by
  have hstore : fieldOpcode (encode e (.sw rs2 rs1 imm)) = e.opcStore := fieldOpcode_encodeS ..
  rw [decode_eq_selectS he hstore]
  simp [encode, selectS]

/-- The halt word is the word a beq with every field zero would have (44 R136). -/
theorem decode_encode_halt : decode e (encode e .halt) = .instr .halt := by
  have hbranch : fieldOpcode (encode e .halt) = e.opcBranch := fieldOpcode_encodeB ..
  have himm : immB (encodeB 0 0 0 e.f3Beq e.opcBranch) = 0 := immB_encodeB _ _ _ _ _ rfl
  have hfields : haltFields 0 0 0 = true := rfl
  rw [decode_eq_selectB he hbranch, selectB, encode, fieldFunct3_encodeB, if_pos rfl, fieldRs1_encodeB, fieldRs2_encodeB, himm,
    hfields, if_pos rfl]

theorem decode_encode_blt {rs1 rs2 : RegIdx} {imm : BitVec 13} (heven : imm.getLsbD 0 = false) :
    decode e (encode e (.blt rs1 rs2 imm)) = .instr (.blt rs1 rs2 imm) := by
  have hbranch : fieldOpcode (encode e (.blt rs1 rs2 imm)) = e.opcBranch := fieldOpcode_encodeB ..
  obtain ⟨-, -, hcodes⟩ := (Enc.wf_iff e).mp he
  have hbeq : e.f3Blt ≠ e.f3Beq := fun h => by simp [h] at hcodes
  have hbne : e.f3Blt ≠ e.f3Bne := fun h => by simp [h] at hcodes
  rw [decode_eq_selectB he hbranch]
  simp [encode, selectB, immB_encodeB _ _ _ _ _ heven, hbeq, hbne]

end

theorem decode_encode_haltSys (e : Enc) (ignored : BitVec 25) :
    decode e (encode e (.haltSys ignored)) = .instr (.haltSys ignored) := by
  rw [encode, decode_eq_haltSys (fieldOpcode_append ..), fieldIgnored_append]

open Sys2Proof.Machine in
/-- Settles O1: one round trip per constructor; the six R-type instructions share one. Well-formedness is what a B or J immediate
needs, and what tells a beq from the halt encoding. -/
theorem decodeOfEncodeIsTheInstruction : Obligations.DecodeOfEncodeIsTheInstruction := by
  intro e i he hi
  cases i with
  | halt => exact decode_encode_halt he
  | haltSys ignored => exact decode_encode_haltSys e ignored
  | add rd rs1 rs2 => exact decode_encode_toInstr he .add rd rs1 rs2
  | sub rd rs1 rs2 => exact decode_encode_toInstr he .sub rd rs1 rs2
  | slt rd rs1 rs2 => exact decode_encode_toInstr he .slt rd rs1 rs2
  | srl rd rs1 rs2 => exact decode_encode_toInstr he .srl rd rs1 rs2
  | or rd rs1 rs2 => exact decode_encode_toInstr he .or rd rs1 rs2
  | and rd rs1 rs2 => exact decode_encode_toInstr he .and rd rs1 rs2
  | addi rd rs1 imm => exact decode_encode_addi he rd rs1 imm
  | lw rd rs1 imm => exact decode_encode_lw he rd rs1 imm
  | jalr rd rs1 imm => exact decode_encode_jalr he rd rs1 imm
  | sw rs2 rs1 imm => exact decode_encode_sw he rs2 rs1 imm
  | beq rs1 rs2 imm =>
    simp only [Instr.wf, Bool.and_eq_true, evenOffset_iff, Bool.not_eq_true'] at hi
    obtain ⟨heven, hnotHalt⟩ := hi
    exact decode_encode_beq he heven fun h => by simp [(haltFields_iff rs1 rs2 imm).mpr h] at hnotHalt
  | bne rs1 rs2 imm => exact decode_encode_bne he ((evenOffset_iff imm).mp hi)
  | blt rs1 rs2 imm => exact decode_encode_blt he ((evenOffset_iff imm).mp hi)
  | jal rd imm => exact decode_encode_jal he rd ((evenOffset_iff imm).mp hi)

/-! ### Encoding the decoded instruction (30 R83): one lemma per class -/

section
variable {e : Enc} {w : Word} {i : Instr}

theorem encode_of_selectR (hop : fieldOpcode w = e.opcOp) (h : selectR e w = .instr i) : i.wf = true ∧ encode e i = w := by
  have hw := encodeR_fields w
  unfold selectR at h
  repeat' split at h
  all_goals cases h
  all_goals exact ⟨rfl, by simp_all [encode]⟩

theorem encode_of_selectI (h : selectI e w = .instr i) : i.wf = true ∧ encode e i = w := by
  have hw := encodeI_fields w
  unfold selectI at h
  repeat' split at h
  all_goals cases h
  all_goals exact ⟨rfl, by simp_all [encode]⟩

theorem encode_of_selectS (hop : fieldOpcode w = e.opcStore) (h : selectS e w = .instr i) : i.wf = true ∧ encode e i = w := by
  have hw := encodeS_fields w
  unfold selectS at h
  split at h <;> cases h
  exact ⟨rfl, by simp_all [encode]⟩

/-- The fields the halt test asks to be zero are the operands of `encode e .halt`. -/
theorem encode_of_selectB (hop : fieldOpcode w = e.opcBranch) (h : selectB e w = .instr i) : i.wf = true ∧ encode e i = w := by
  have hw := encodeB_fields w
  unfold selectB at h
  repeat' split at h
  all_goals cases h
  case isTrue.isTrue hhalt =>
    obtain ⟨h1, h2, himm⟩ := (haltFields_iff _ _ _).mp hhalt
    exact ⟨rfl, by simp_all [encode]⟩
  all_goals exact ⟨by simp_all [Instr.wf], by simp_all [encode]⟩

end

/-- Settles O2: what each class selects is encoded from the same fields, which together are the whole word. -/
theorem encodeOfDecodeIsTheWord : Obligations.EncodeOfDecodeIsTheWord := by
  intro e w i h
  have hopcode := classify_opcode e w
  unfold decode at h
  cases hclass : classify e w <;> simp only [hclass] at h hopcode
  case R => exact encode_of_selectR hopcode h
  case I => exact encode_of_selectI h
  case S => exact encode_of_selectS hopcode h
  case B => exact encode_of_selectB hopcode h
  case J =>
    cases h
    exact ⟨evenOffset_immJ w, by rw [encode, ← hopcode, encodeJ_fields]⟩
  case SYS =>
    cases h
    exact ⟨rfl, by rw [encode, ← hopcode, ignored_append_opcode]⟩
  case UNKNOWN => cases h

/-! ### Codes that are not listed (30 R80, R81, D3) -/

section
variable {e : Enc} {w : Word}

theorem selectR_of_pair_not_mem
    (h : (fieldFunct3 w, fieldFunct7 w) ∉ [(e.f3AddSub, e.f7Base), (e.f3AddSub, e.f7Alt), (e.f3Slt, e.f7Base), (e.f3Srl, e.f7Base),
      (e.f3Or, e.f7Base), (e.f3And, e.f7Base)]) : selectR e w = .unknownInstruction w := by
  simp only [List.mem_cons, Prod.mk.injEq, List.not_mem_nil, not_or] at h
  simp [selectR, h]

theorem selectI_of_row_not_mem
    (h : (fieldOpcode w, fieldFunct3 w) ∉ [(e.opcOpimm, e.f3Addi), (e.opcLoad, e.f3Lw), (e.opcJalr, e.f3Jalr)]) :
    selectI e w = .unknownInstruction w := by
  simp only [List.mem_cons, Prod.mk.injEq, List.not_mem_nil, not_or] at h
  simp [selectI, h]

theorem selectB_of_funct3_not_mem (h : fieldFunct3 w ∉ [e.f3Beq, e.f3Bne, e.f3Blt]) : selectB e w = .unknownBranch w := by
  simp only [List.mem_cons, List.not_mem_nil, not_or] at h
  simp [selectB, h]

end

/-- Settles O4: the opcode fixes the class, and the class compares its function codes in full. A row of the I class matches on the
opcode too, and the other two rows have other opcodes. -/
theorem unlistedCodesAreRejectedByName : Obligations.UnlistedCodesAreRejectedByName := by
  intro e w he
  obtain ⟨hopcodes, -, -⟩ := (Enc.wf_iff e).mp he
  simp only [List.nodup_cons, List.mem_cons, not_or] at hopcodes
  refine ⟨decode_of_opcode_not_mem, fun hop hpair => ?_, fun (hop : fieldOpcode w = _) (h3 : fieldFunct3 w ≠ _) => ?_,
    fun (hop : fieldOpcode w = _) (h3 : fieldFunct3 w ≠ _) => ?_, fun (hop : fieldOpcode w = _) (h3 : fieldFunct3 w ≠ _) => ?_,
    fun hop (h3 : fieldFunct3 w ≠ _) => ?_, fun hop h3 => ?_⟩
  · rw [decode_eq_selectR he hop, selectR_of_pair_not_mem hpair]
  · rw [decode_eq_selectI he (.inl hop), selectI_of_row_not_mem (by grind)]
  · rw [decode_eq_selectI he (.inr (.inl hop)), selectI_of_row_not_mem (by grind)]
  · rw [decode_eq_selectI he (.inr (.inr hop)), selectI_of_row_not_mem (by grind)]
  · rw [decode_eq_selectS he hop, selectS, if_neg h3]
  · rw [decode_eq_selectB he hop, selectB_of_funct3_not_mem h3]

end Sys2Proof

/-! PROOFS. The opcode table (30_encoding.md R77) under the encoding table of 00_scope.md R8: a row matches exactly when the word's
fixed fields have the row's values, so the first row that matches is the branch that the decoder takes. -/

namespace Sys2Proof

/-! ### A row as a test of the word's fields -/

section
variable (w : Word) (opc : BitVec 7) (f3 : BitVec 3) (f7 : BitVec 7)

/-- A row that fixes the opcode. -/
theorem and_mask_opcode_iff : w &&& 0x0000007F#32 = 0#25 ++ opc ↔ fieldOpcode w = opc := by
  have hmask : w &&& 0x0000007F#32 = 0#25 ++ fieldOpcode w := by
    apply BitVec.eq_of_getLsbD_eq
    intro i hi
    simp only [fieldOpcode, BitVec.getLsbD_and, BitVec.getLsbD_append, BitVec.getLsbD_extractLsb']
    interval_cases i <;> simp
  refine ⟨fun h => ?_, fun h => h ▸ hmask⟩
  simpa using congrArg fieldOpcode (hmask.symm.trans h)

/-- A row that fixes the opcode and funct3. -/
theorem and_mask_funct3_iff :
    w &&& 0x0000707F#32 = encodeI 0 0 f3 0 opc ↔ fieldOpcode w = opc ∧ fieldFunct3 w = f3 := by
  have hmask : w &&& 0x0000707F#32 = encodeI 0 0 (fieldFunct3 w) 0 (fieldOpcode w) := by
    apply BitVec.eq_of_getLsbD_eq
    intro i hi
    simp only [encodeI, fieldOpcode, fieldFunct3, BitVec.getLsbD_and, BitVec.getLsbD_append, BitVec.getLsbD_extractLsb']
    interval_cases i <;> simp
  refine ⟨fun h => ?_, fun ⟨h, h3⟩ => h ▸ h3 ▸ hmask⟩
  have heq := hmask.symm.trans h
  exact ⟨by simpa using congrArg fieldOpcode heq, by simpa using congrArg fieldFunct3 heq⟩

/-- A row that fixes the opcode and both function codes. -/
theorem and_mask_funct7_iff :
    w &&& 0xFE00707F#32 = encodeR f7 0 0 f3 0 opc ↔ fieldOpcode w = opc ∧ fieldFunct3 w = f3 ∧ fieldFunct7 w = f7 := by
  have hmask : w &&& 0xFE00707F#32 = encodeR (fieldFunct7 w) 0 0 (fieldFunct3 w) 0 (fieldOpcode w) := by
    apply BitVec.eq_of_getLsbD_eq
    intro i hi
    simp only [encodeR, fieldOpcode, fieldFunct3, fieldFunct7, BitVec.getLsbD_and, BitVec.getLsbD_append,
      BitVec.getLsbD_extractLsb']
    interval_cases i <;> simp
  refine ⟨fun h => ?_, fun ⟨h, h3, h7⟩ => h ▸ h3 ▸ h7 ▸ hmask⟩
  have heq := hmask.symm.trans h
  exact ⟨by simpa using congrArg fieldOpcode heq, by simpa using congrArg fieldFunct3 heq,
    by simpa using congrArg fieldFunct7 heq⟩

end

/-- The halt word is told by its fields (44 R136). -/
theorem eq_haltWord_iff (w : Word) :
    w = 0x00000063#32 ↔ fieldOpcode w = 0b1100011#7 ∧ fieldFunct3 w = 0b000#3 ∧
      haltFields (fieldRs1 w) (fieldRs2 w) (immB w) = true := by
  rw [haltFields_iff]
  refine ⟨fun h => by subst h; decide, fun ⟨hop, h3, h1, h2, himm⟩ => ?_⟩
  rw [← encodeB_fields w, hop, h3, h1, h2, himm]
  rfl

/-- The rows of the table as tests of the fields, in the table's order. -/
def rowTests (w : Word) : List Bool :=
  [decide (fieldOpcode w = 0b1100011#7 ∧ fieldFunct3 w = 0b000#3 ∧ haltFields (fieldRs1 w) (fieldRs2 w) (immB w) = true),
   decide (fieldOpcode w = 0b1110011#7),
   decide (fieldOpcode w = 0b0110011#7 ∧ fieldFunct3 w = 0b000#3 ∧ fieldFunct7 w = 0b0000000#7),
   decide (fieldOpcode w = 0b0110011#7 ∧ fieldFunct3 w = 0b000#3 ∧ fieldFunct7 w = 0b0100000#7),
   decide (fieldOpcode w = 0b0110011#7 ∧ fieldFunct3 w = 0b010#3 ∧ fieldFunct7 w = 0b0000000#7),
   decide (fieldOpcode w = 0b0110011#7 ∧ fieldFunct3 w = 0b101#3 ∧ fieldFunct7 w = 0b0000000#7),
   decide (fieldOpcode w = 0b0110011#7 ∧ fieldFunct3 w = 0b110#3 ∧ fieldFunct7 w = 0b0000000#7),
   decide (fieldOpcode w = 0b0110011#7 ∧ fieldFunct3 w = 0b111#3 ∧ fieldFunct7 w = 0b0000000#7),
   decide (fieldOpcode w = 0b0010011#7 ∧ fieldFunct3 w = 0b000#3),
   decide (fieldOpcode w = 0b0000011#7 ∧ fieldFunct3 w = 0b010#3),
   decide (fieldOpcode w = 0b1100111#7 ∧ fieldFunct3 w = 0b000#3),
   decide (fieldOpcode w = 0b0100011#7 ∧ fieldFunct3 w = 0b010#3),
   decide (fieldOpcode w = 0b1100011#7 ∧ fieldFunct3 w = 0b000#3),
   decide (fieldOpcode w = 0b1100011#7 ∧ fieldFunct3 w = 0b001#3),
   decide (fieldOpcode w = 0b1100011#7 ∧ fieldFunct3 w = 0b100#3),
   decide (fieldOpcode w = 0b1101111#7)]

open Sys2Proof.Machine in
theorem firstRow_eq_rowTests (w : Word) : firstRow w = (rowTests w).findIdx? id := by
  have hrows : (opcodeRows.map fun r => w &&& r.1 == r.2) = rowTests w := by
    simp only [opcodeRows, List.cons_append, List.nil_append, List.map_cons, List.map_nil, rowTests, beq_eq_decide,
      List.cons.injEq, decide_eq_decide, and_true]
    have hall : w &&& 0xFFFFFFFF#32 = w := BitVec.and_allOnes
    exact ⟨hall.congr_left.trans (eq_haltWord_iff w), and_mask_opcode_iff w 0b1110011,
      and_mask_funct7_iff w 0b0110011 0b000 0b0000000, and_mask_funct7_iff w 0b0110011 0b000 0b0100000,
      and_mask_funct7_iff w 0b0110011 0b010 0b0000000, and_mask_funct7_iff w 0b0110011 0b101 0b0000000,
      and_mask_funct7_iff w 0b0110011 0b110 0b0000000, and_mask_funct7_iff w 0b0110011 0b111 0b0000000,
      and_mask_funct3_iff w 0b0010011 0b000, and_mask_funct3_iff w 0b0000011 0b010, and_mask_funct3_iff w 0b1100111 0b000,
      and_mask_funct3_iff w 0b0100011 0b010, and_mask_funct3_iff w 0b1100011 0b000, and_mask_funct3_iff w 0b1100011 0b001,
      and_mask_funct3_iff w 0b1100011 0b100, and_mask_opcode_iff w 0b1101111⟩
  rw [← hrows, List.findIdx?_map]
  rfl

/-- The row that the decoder's answer stands for. -/
def Decoded.row : Decoded → Option Nat
  | .instr i => some (Machine.rowOf i)
  | .unknownInstruction _ => none
  | .unknownBranch _ => none

@[simp] theorem Decoded.row_instr (i : Instr) : (Decoded.instr i).row = some (Machine.rowOf i) := rfl
@[simp] theorem Decoded.row_unknownInstruction (w : Word) : (Decoded.unknownInstruction w).row = none := rfl
@[simp] theorem Decoded.row_unknownBranch (w : Word) : (Decoded.unknownBranch w).row = none := rfl
@[simp] theorem Decoded.row_ite {p : Prop} {_ : Decidable p} (d d' : Decoded) :
    (if p then d else d').row = if p then d.row else d'.row := apply_ite Decoded.row p d d'

/-- Within a class the rows of other opcodes are out, and the rest are the tests of the class in the same order. -/
theorem firstRow_eq_row_decode (w : Word) : Machine.firstRow w = (decode Enc.default w).row := by
  have hopcode := classify_opcode Enc.default w
  rw [firstRow_eq_rowTests, decode]
  cases hclass : classify Enc.default w <;> simp only [hclass] at hopcode ⊢
  case SYS => simp [rowTests, hopcode, Enc.default, List.findIdx?_cons, Machine.rowOf]
  case J => simp [rowTests, hopcode, Enc.default, List.findIdx?_cons, Machine.rowOf]
  case S =>
    simp only [selectS, Decoded.row_ite]
    simp [rowTests, hopcode, Enc.default, List.findIdx?_cons, Machine.rowOf]
    grind
  case I =>
    simp only [selectI, Decoded.row_ite]
    rcases hopcode with hopcode | hopcode | hopcode <;>
      simp [rowTests, hopcode, Enc.default, List.findIdx?_cons, Machine.rowOf]
  case R =>
    simp only [selectR, Decoded.row_ite]
    simp [rowTests, hopcode, Enc.default, List.findIdx?_cons, Machine.rowOf]
    grind
  case B =>
    simp only [selectB, Decoded.row_ite]
    simp [rowTests, hopcode, Enc.default, List.findIdx?_cons, Machine.rowOf]
    grind
  case UNKNOWN => simp_all [rowTests, Enc.default, List.findIdx?_cons]

/-! ### Which error a word that matches no row gives (30 R80, R81, 44 R139) -/

theorem opcode_of_unknownBranch {e : Enc} {w w' : Word} (h : decode e w = .unknownBranch w') : fieldOpcode w = e.opcBranch := by
  have hopcode := classify_opcode e w
  unfold decode at h
  cases hclass : classify e w <;> simp only [hclass] at h hopcode
  case B => exact hopcode
  all_goals simp [selectR, selectI, selectS] at h
  all_goals grind

theorem opcode_of_unknownInstruction {e : Enc} {w w' : Word} (he : e.wf = true) (h : decode e w = .unknownInstruction w') :
    fieldOpcode w ≠ e.opcBranch := by
  intro hbranch
  rw [decode_eq_selectB he hbranch] at h
  unfold selectB at h
  grind

/-- Settles O3: the first row that matches is the row of the decoder's answer, and the two errors are told apart by the opcode. -/
theorem firstMatchingTableRowGivesTheInstruction : Obligations.FirstMatchingTableRowGivesTheInstruction := by
  intro w
  have hrow := firstRow_eq_row_decode w
  have hwf : Enc.default.wf = true := by decide
  cases h : decode Enc.default w with
  | instr i => simpa [h] using hrow
  | unknownInstruction w' => exact ⟨decode_unknownInstruction h, by simpa [h] using hrow, opcode_of_unknownInstruction hwf h⟩
  | unknownBranch w' => exact ⟨decode_unknownBranch h, by simpa [h] using hrow, opcode_of_unknownBranch h⟩

/-- Settles O5: each word decodes by computation. -/
theorem specWordsDecodeToTheirInstruction : Obligations.SpecWordsDecodeToTheirInstruction := by
  unfold Obligations.SpecWordsDecodeToTheirInstruction
  decide

end Sys2Proof

namespace Sys2Proof.Machine

/-! ### The two halt encodings (44 R136, 46 R151) -/

/-- The halt word is the only one that decodes to `halt`, because the instruction determines its word (30 R83). -/
theorem decode_default_eq_halt_iff (w : Word) : decode Enc.default w = .instr .halt ↔ w = 0x00000063 := by
  refine ⟨fun h => ?_, fun h => by subst h; decide⟩
  obtain ⟨-, hw⟩ := encodeOfDecodeIsTheWord _ _ _ h
  rw [← hw]
  decide

theorem State.stopsAs_halt (s : State) : StopsAs s s.halt .halted := ⟨rfl, fun _ => rfl, fun _ => rfl, rfl, rfl, rfl, rfl⟩

/-- Settles O21. -/
theorem haltEncodingHaltsAndChangesNothingElse : Obligations.HaltEncodingHaltsAndChangesNothingElse :=
  ⟨decode_default_eq_halt_iff, fun s => ⟨_, rfl, s.stopsAs_halt⟩⟩

/-- Settles O22: no other opcode is OPC_SYSTEM, and the instruction does not read the bits it carries. -/
theorem systemOpcodeHaltsWhateverItsFields : Obligations.SystemOpcodeHaltsWhateverItsFields :=
  ⟨fun _ hw => decode_eq_haltSys hw, fun _ s => ⟨_, rfl, s.stopsAs_halt⟩⟩

end Sys2Proof.Machine

/-! PROOFS. What a cycle can do (60_exceptions.md R160 to R165), said once: the guard that stops it, the error that ends it before
execution, and the result of each instruction with its destination, its address or its next pc. -/

namespace Sys2Proof.Machine

variable {s t : State} {i : Instr}

/-! ### The remaining instructions -/

@[simp] theorem exec_halt (s : State) : exec .halt s = .next s.halt := rfl
@[simp] theorem exec_haltSys (ignored : BitVec 25) (s : State) : exec (.haltSys ignored) s = .next s.halt := rfl
@[simp] theorem exec_blt (rs1 rs2 : RegIdx) (imm : BitVec 13) (s : State) :
    exec (.blt rs1 rs2 imm) s = .next (s.raise (.unknownBranch (encode s.cfg.enc (.blt rs1 rs2 imm)))) := rfl

/-- A store whose address is admitted replaces the containing word. -/
theorem exec_sw_of_admits (rs2 rs1 : RegIdx) (imm : BitVec 12) (h : admits s.cfg (s.baseDisp rs1 imm) = true) :
    exec (.sw rs2 rs1 imm) s =
      .next (State.commit { s with mem := s.mem.writeWord (wordIndex (s.baseDisp rs1 imm)) (s.readReg rs2) } s.sequential) := by
  simp [exec, execSw, State.memWrite, h]

/-- A store whose address is not admitted faults (20 R43). -/
theorem exec_sw_of_not_admits (rs2 rs1 : RegIdx) (imm : BitVec 12) (h : ¬ admits s.cfg (s.baseDisp rs1 imm) = true) :
    exec (.sw rs2 rs1 imm) s = .next (s.raise (.memoryAccess (s.baseDisp rs1 imm))) := by
  simp [exec, execSw, State.memWrite, h]

/-- The refused alternative of JALR_ALIAS (U6, log 7). -/
theorem exec_jalr_of_refused (rd rs1 : RegIdx) (imm : BitVec 12) (hcfg : s.cfg.jalrAlias = .refuse)
    (h : linkIsBase rd rs1 = true) : exec (.jalr rd rs1 imm) s = .refused .jalrLinkIsBase :=
  if_pos ⟨hcfg, h⟩

theorem exec_jalr_of_not_refused (rd rs1 : RegIdx) (imm : BitVec 12)
    (h : ¬ (s.cfg.jalrAlias = .refuse ∧ linkIsBase rd rs1 = true)) :
    exec (.jalr rd rs1 imm) s = .next ((s.writeReg rd s.link).commit (s.baseDisp rs1 imm)) :=
  if_neg h

end Sys2Proof.Machine

namespace Sys2Proof

/-- The destination register of the ten instructions that have one (10 R23). -/
def Instr.dest : Instr → Option RegIdx
  | .halt => none
  | .haltSys _ => none
  | .add rd _ _ => some rd
  | .sub rd _ _ => some rd
  | .slt rd _ _ => some rd
  | .srl rd _ _ => some rd
  | .or rd _ _ => some rd
  | .and rd _ _ => some rd
  | .addi rd _ _ => some rd
  | .lw rd _ _ => some rd
  | .jalr rd _ _ => some rd
  | .sw _ _ _ => none
  | .beq _ _ _ => none
  | .bne _ _ _ => none
  | .blt _ _ _ => none
  | .jal rd _ => some rd

/-- The instructions that have a destination, by their operands. -/
theorem Instr.dest_eq_some {i : Instr} {r : RegIdx} (h : i.dest = some r) :
    (∃ rs1 rs2, i ∈ [Instr.add r rs1 rs2, .sub r rs1 rs2, .slt r rs1 rs2, .srl r rs1 rs2, .or r rs1 rs2, .and r rs1 rs2]) ∨
      (∃ rs1 imm, i ∈ [Instr.addi r rs1 imm, .lw r rs1 imm, .jalr r rs1 imm]) ∨ ∃ imm, i = .jal r imm := by
  cases i with
  | add rd rs1 rs2 => cases h; exact .inl ⟨rs1, rs2, by simp⟩
  | sub rd rs1 rs2 => cases h; exact .inl ⟨rs1, rs2, by simp⟩
  | slt rd rs1 rs2 => cases h; exact .inl ⟨rs1, rs2, by simp⟩
  | srl rd rs1 rs2 => cases h; exact .inl ⟨rs1, rs2, by simp⟩
  | or rd rs1 rs2 => cases h; exact .inl ⟨rs1, rs2, by simp⟩
  | and rd rs1 rs2 => cases h; exact .inl ⟨rs1, rs2, by simp⟩
  | addi rd rs1 imm => cases h; exact .inr (.inl ⟨rs1, imm, by simp⟩)
  | lw rd rs1 imm => cases h; exact .inr (.inl ⟨rs1, imm, by simp⟩)
  | jalr rd rs1 imm => cases h; exact .inr (.inl ⟨rs1, imm, by simp⟩)
  | jal rd imm => cases h; exact .inr (.inr ⟨imm, rfl⟩)
  | _ => cases h

end Sys2Proof

namespace Sys2Proof.Machine

variable {s t : State} {i : Instr}

/-! ### The result of an instruction -/

/-- What an instruction writes before its next pc is committed: nothing, its destination register, or the word it stores to. -/
inductive Writes (s : State) : Instr → State → Prop where
  | nothing (i : Instr) : Writes s i s
  | register {i : Instr} {rd : RegIdx} (v : Word) (hdest : i.dest = some rd) : Writes s i (s.writeReg rd v)
  | word (rs2 rs1 : RegIdx) (imm : BitVec 12) (hadmits : admits s.cfg (s.baseDisp rs1 imm) = true) :
      Writes s (.sw rs2 rs1 imm) { s with mem := s.mem.writeWord (wordIndex (s.baseDisp rs1 imm)) (s.readReg rs2) }

theorem Writes.effect {s' : State} (h : Writes s i s') : Effect s s' := by
  cases h with
  | nothing => exact .nothing
  | register v hdest => exact .register _ v
  | word rs2 rs1 imm hadmits => exact .word _ _ (wordIndex_lt hadmits)

/-- The states an instruction can answer from `s`: the ends of a cycle of 60 R160. -/
inductive ExecResult (s : State) : Instr → State → Prop where
  | commits {i : Instr} {s' : State} {n : Int} (hwrites : Writes s i s') (hnext : s.nextPcOf i = some n) :
      ExecResult s i (s'.commit n)
  | halts {i : Instr} (hi : i = .halt ∨ ∃ ignored, i = .haltSys ignored) : ExecResult s i s.halt
  | badAddress {i : Instr} (r rs1 : RegIdx) (imm : BitVec 12) (hi : i = .lw r rs1 imm ∨ i = .sw r rs1 imm)
      (hadmits : ¬ admits s.cfg (s.baseDisp rs1 imm) = true) : ExecResult s i (s.raise (.memoryAccess (s.baseDisp rs1 imm)))
  | noBranch (rs1 rs2 : RegIdx) (imm : BitVec 13) :
      ExecResult s (.blt rs1 rs2 imm) (s.raise (.unknownBranch (encode s.cfg.enc (.blt rs1 rs2 imm))))

/-- Every instruction answers one of its results, but for the refused form of `jalr` (40 R96, U6). -/
theorem exec_cases (i : Instr) (s : State) :
    (∃ t, exec i s = .next t ∧ ExecResult s i t) ∨
      (s.cfg.jalrAlias = .refuse ∧ (∃ r imm, r ≠ 0 ∧ i = .jalr r r imm) ∧ exec i s = .refused .jalrLinkIsBase) := by
  cases i with
  | halt => exact .inl ⟨_, exec_halt s, .halts (.inl rfl)⟩
  | haltSys ignored => exact .inl ⟨_, exec_haltSys ignored s, .halts (.inr ⟨_, rfl⟩)⟩
  | add rd rs1 rs2 => exact .inl ⟨_, exec_add s rd rs1 rs2, .commits (.register _ rfl) rfl⟩
  | sub rd rs1 rs2 => exact .inl ⟨_, exec_sub s rd rs1 rs2, .commits (.register _ rfl) rfl⟩
  | slt rd rs1 rs2 => exact .inl ⟨_, exec_slt s rd rs1 rs2, .commits (.register _ rfl) rfl⟩
  | srl rd rs1 rs2 => exact .inl ⟨_, exec_srl s rd rs1 rs2, .commits (.register _ rfl) rfl⟩
  | or rd rs1 rs2 => exact .inl ⟨_, exec_or s rd rs1 rs2, .commits (.register _ rfl) rfl⟩
  | and rd rs1 rs2 => exact .inl ⟨_, exec_and s rd rs1 rs2, .commits (.register _ rfl) rfl⟩
  | addi rd rs1 imm => exact .inl ⟨_, exec_addi s rd rs1 imm, .commits (.register _ rfl) rfl⟩
  | lw rd rs1 imm =>
    by_cases h : admits s.cfg (s.baseDisp rs1 imm) = true
    · exact .inl ⟨_, exec_lw_of_admits s rd rs1 imm h, .commits (.register _ rfl) rfl⟩
    · exact .inl ⟨_, exec_lw_of_not_admits s rd rs1 imm h, .badAddress _ _ _ (.inl rfl) h⟩
  | jalr rd rs1 imm =>
    by_cases h : s.cfg.jalrAlias = .refuse ∧ linkIsBase rd rs1 = true
    · obtain ⟨hcfg, hform⟩ := h
      obtain ⟨rfl, hne⟩ : rd = rs1 ∧ rd ≠ 0 := by simpa [linkIsBase] using hform
      exact .inr ⟨hcfg, ⟨rd, imm, hne, rfl⟩, exec_jalr_of_refused rd rd imm hcfg hform⟩
    · exact .inl ⟨_, exec_jalr_of_not_refused rd rs1 imm h, .commits (.register _ rfl) rfl⟩
  | sw rs2 rs1 imm =>
    by_cases h : admits s.cfg (s.baseDisp rs1 imm) = true
    · exact .inl ⟨_, exec_sw_of_admits rs2 rs1 imm h, .commits (.word _ _ _ h) rfl⟩
    · exact .inl ⟨_, exec_sw_of_not_admits rs2 rs1 imm h, .badAddress _ _ _ (.inr rfl) h⟩
  | beq rs1 rs2 imm => exact .inl ⟨_, exec_beq s rs1 rs2 imm, .commits (.nothing _) rfl⟩
  | bne rs1 rs2 imm => exact .inl ⟨_, exec_bne s rs1 rs2 imm, .commits (.nothing _) rfl⟩
  | blt rs1 rs2 imm => exact .inl ⟨_, exec_blt rs1 rs2 imm s, .noBranch _ _ _⟩
  | jal rd imm => exact .inl ⟨_, exec_jal s rd imm, .commits (.register _ rfl) rfl⟩

theorem execResult_of_exec (h : exec i s = .next t) : ExecResult s i t := by
  obtain ⟨t', ht', hresult⟩ | ⟨-, -, hrefused⟩ := exec_cases i s
  · rw [h] at ht'
    cases ht'
    exact hresult
  · rw [h] at hrefused
    cases hrefused

/-! ### The guards, the fetch and the decode -/

theorem guardStop_some_iff {c : Cause} : guardStop s = some c ↔
    (s.cfg.stepLimit ≤ s.stepCount ∧ c = .stepLimitGuard) ∨
      (s.stepCount < s.cfg.stepLimit ∧ s.prevPc = some s.pc ∧ c = .pcRepeatGuard s.pc) := by
  unfold guardStop
  split
  · next hlimit => simp [hlimit, Nat.not_lt.mpr hlimit, eq_comm]
  · next hlimit =>
    have hlt : s.stepCount < s.cfg.stepLimit := Nat.not_le.mp hlimit
    split
    · next hrepeat => simp [hlimit, hlt, hrepeat, eq_comm]
    · next hrepeat => simp [hlimit, hrepeat]

/-- A cycle ends before execution in the fault of its pc, or in the error of the word at its pc. -/
theorem fetchDecode_fault_iff {c : Cause} : fetchDecode s = .fault c ↔
    (s.canFetch = false ∧ c = .fetchFault s.pc.toNat) ∨
    (s.canFetch = true ∧ decode s.cfg.enc s.wordAtPc = .unknownInstruction s.wordAtPc ∧ c = .unknownInstruction s.wordAtPc) ∨
    (s.canFetch = true ∧ decode s.cfg.enc s.wordAtPc = .unknownBranch s.wordAtPc ∧ c = .unknownBranch s.wordAtPc) := by
  unfold fetchDecode
  obtain ⟨hcan, hfetch⟩ | ⟨hcan, hfetch⟩ := s.fetch_cases
  · have hword : s.fetch = some s.wordAtPc := hfetch
    simp only [hword, hcan]
    cases hdec : decode s.cfg.enc s.wordAtPc with
    | instr i => simp
    | unknownInstruction w => simp [decode_unknownInstruction hdec, eq_comm]
    | unknownBranch w => simp [decode_unknownBranch hdec, eq_comm]
  · simp [hfetch, hcan, eq_comm]

theorem ready_iff : s.Ready ↔ s.runState = .running ∧ guardStop s = none ∧ s.canFetch = true := by
  rw [guardStop_none_iff, State.canFetch_iff]
  simp only [State.Ready, memBytes, and_assoc]

theorem runs_iff : s.Runs i ↔ s.runState = .running ∧ guardStop s = none ∧ fetchDecode s = .instr i := by
  rw [State.Runs, ready_iff, fetchDecode_instr_iff]
  simp only [State.wordAtPc, and_assoc]

/-! ### One step -/

theorem step_of_guardStop {c : Cause} (hr : s.runState = .running) (hguard : guardStop s = some c) :
    step s = .next (s.raise c) := by
  simp [step_of_running hr, cycle, hguard]

theorem step_of_fetchDecode_fault {c : Cause} (hr : s.runState = .running) (hguard : guardStop s = none)
    (hfault : fetchDecode s = .fault c) : step s = .next (s.countCycle.raise c) := by
  simp [step_of_running hr, cycle, hguard, hfault]

theorem step_of_runs (h : s.Runs i) : step s = exec i s.countCycle := by
  obtain ⟨hr, hguard, hinstr⟩ := runs_iff.mp h
  simp [step_of_running hr, cycle, hguard, hinstr]

/-- The states a step of a Running core can answer. -/
inductive StepResult (s : State) : State → Prop where
  | stopped {c : Cause} (hguard : guardStop s = some c) : StepResult s (s.raise c)
  | rejected {c : Cause} (hguard : guardStop s = none) (hfault : fetchDecode s = .fault c) :
      StepResult s (s.countCycle.raise c)
  | executed {i : Instr} {t : State} (hruns : s.Runs i) (hresult : ExecResult s.countCycle i t) : StepResult s t

theorem stepResult_of_step (hr : s.runState = .running) (h : step s = .next t) : StepResult s t := by
  obtain ⟨hnot, -⟩ | ⟨-, c, hguard, rfl⟩ | ⟨-, hguard, c, hfault, rfl⟩ | ⟨-, hguard, i, hinstr, hexec⟩ := step_next_cases h
  · exact absurd hr hnot
  · exact .stopped hguard
  · exact .rejected hguard hfault
  · exact .executed (runs_iff.mpr ⟨hr, hguard, hinstr⟩) (execResult_of_exec hexec)

end Sys2Proof.Machine

/-! PROOFS. The invariant (Safety.lean): what is written before a commit keeps its memory and register clauses, and each end of a cycle
keeps the rest; with it the two run-long facts about the configuration and register 0. -/

namespace Sys2Proof.Machine

variable {s s' t : State}

/-! ### What is written before the commit -/

section
variable (h : Effect s s')
include h

theorem Effect.pc_eq : s'.pc = s.pc := by cases h <;> simp
theorem Effect.runState_eq : s'.runState = s.runState := by cases h <;> simp
theorem Effect.stepCount_eq : s'.stepCount = s.stepCount := by cases h <;> simp
theorem Effect.cfg_eq : s'.cfg = s.cfg := by cases h <;> simp

theorem Effect.mem_wf (hwf : s.mem.wf) : s'.mem.wf := by
  cases h with
  | nothing => exact hwf
  | register rd v => rwa [State.writeReg_mem]
  | word k v hk => exact Memory.wf_writeWord hwf k v

theorem Effect.mem_within (hin : s.mem.within (memBytes s.cfg)) : s'.mem.within (memBytes s.cfg) := by
  cases h with
  | nothing => exact hin
  | register rd v => rwa [State.writeReg_mem]
  | word k v hk => exact Memory.within_writeWord hin hk v

theorem Effect.slotZero (hzero : s.regs[0] = 0) : s'.regs[0] = 0 := by
  cases h with
  | nothing => exact hzero
  | register rd v => exact s.writeReg_slotZero rd v hzero
  | word k v hk => exact hzero

end

/-! ### The ends of a cycle keep the invariant -/

/-- A guard stop. -/
theorem State.Inv.raise (h : s.Inv) (c : Cause) : (s.raise c).Inv where
  config := h.config
  memCanonical := h.memCanonical
  memInSpace := h.memInSpace
  zeroRegister := h.zeroRegister
  countInRange := h.countInRange
  prevPcSet := nofun
  prevPcFetched := h.prevPcFetched
  haltedOnWord := nofun

section
variable (h : s.Inv) (hcount : s.stepCount < s.cfg.stepLimit)
include h hcount

/-- A fault that changes nothing. -/
theorem State.Inv.countCycle_raise (c : Cause) : (s.countCycle.raise c).Inv :=
  { h.raise c with countInRange := hcount, prevPcSet := nofun, haltedOnWord := nofun }

variable (hfetch : s.canFetch = true)
include hfetch

/-- A halt, on a word that was fetched. -/
theorem State.Inv.countCycle_halt : s.countCycle.halt.Inv :=
  { h.raise .stepLimitGuard with countInRange := hcount, prevPcSet := nofun, haltedOnWord := fun _ => hfetch }

/-- A commit, from a Running core: prev_pc becomes the pc that was fetched from. -/
theorem State.Inv.commit (hr : s.runState = .running) (heffect : Effect s.countCycle s') (n : Int) : (s'.commit n).Inv where
  config := by simpa [heffect.cfg_eq] using h.config
  memCanonical := by simpa using heffect.mem_wf h.memCanonical
  memInSpace := by simpa [heffect.cfg_eq] using heffect.mem_within h.memInSpace
  zeroRegister := by simpa using heffect.slotZero h.zeroRegister
  countInRange := by simpa [heffect.stepCount_eq, heffect.cfg_eq] using hcount
  prevPcSet := by simp [heffect.stepCount_eq]
  prevPcFetched := by simpa [heffect.pc_eq, heffect.cfg_eq] using s.canFetch_iff.mp hfetch
  haltedOnWord := by
    rw [State.commit_runState, heffect.runState_eq, State.countCycle_runState, hr]
    split <;> nofun

end

/-- Settles O49: a step stays, is stopped by a guard, faults, halts or commits, and each of these keeps the invariant. -/
theorem invariantIsKeptByEveryStep : Obligations.InvariantIsKeptByEveryStep := by
  intro s t h hstep
  obtain ⟨-, rfl⟩ | ⟨-, c, -, rfl⟩ | ⟨-, hguard, c, -, rfl⟩ | ⟨hr, hguard, i, hinstr, hexec⟩ := step_next_cases hstep
  · exact h
  · exact h.raise c
  · obtain ⟨hcount, -⟩ := (guardStop_none_iff s).mp hguard
    exact h.countCycle_raise hcount c
  · obtain ⟨hcount, -⟩ := (guardStop_none_iff s).mp hguard
    obtain ⟨hfetch, -⟩ := (fetchDecode_instr_iff s i).mp hinstr
    obtain ⟨s', n, heffect, -, rfl⟩ | rfl | ⟨c, rfl⟩ := exec_next_cases hexec
    · exact h.commit hcount hfetch hr heffect n
    · exact h.countCycle_halt hcount hfetch
    · exact h.countCycle_raise hcount c

/-! ### Reset (10 R36) -/

/-- Settles O48: clause by clause; the memory at reset lists no cell and there is no previous pc. -/
theorem invariantHoldsAtReset : Obligations.InvariantHoldsAtReset where
  config := by decide
  memCanonical := Memory.wf_empty
  memInSpace := nofun
  zeroRegister := by decide
  countInRange := by decide
  prevPcSet := by decide
  prevPcFetched := nofun
  haltedOnWord := nofun

theorem State.readReg_fresh (c : Config) (r : RegIdx) : (State.fresh c).readReg r = 0 := by
  simp [State.readReg, State.fresh]

theorem Memory.readWord_empty (k : Nat) : (Memory.mk []).readWord k = 0 := by
  simp only [Memory.readWord, Memory.readByte_empty]
  rfl

/-- Settles O47: the registers and the words of an empty memory read zero, and the other fields are the defaults. -/
theorem resetStateIsAsTabulated : Obligations.ResetStateIsAsTabulated :=
  ⟨State.readReg_fresh defaultConfig, rfl, Memory.readWord_empty, rfl, rfl, rfl, rfl, rfl, rfl⟩

/-! ### Runs: the configuration and register 0 -/

/-- What no part of a cycle can falsify, no step falsifies. -/
theorem step_keeps {P : State → Prop} (hcount : ∀ u : State, P u → P u.countCycle) (hraise : ∀ (u : State) c, P u → P (u.raise c))
    (hhalt : ∀ u : State, P u → P u.halt) (heffect : ∀ u u' : State, Effect u u' → P u → P u')
    (hcommit : ∀ (u : State) n, P u → P (u.commit n)) (hs : P s) (h : step s = .next t) : P t := by
  obtain ⟨-, rfl⟩ | ⟨-, c, -, rfl⟩ | ⟨-, -, c, -, rfl⟩ | ⟨-, -, i, -, hexec⟩ := step_next_cases h
  · exact hs
  · exact hraise s c hs
  · exact hraise s.countCycle c (hcount s hs)
  · obtain ⟨s', n, he, -, rfl⟩ | rfl | ⟨c, rfl⟩ := exec_next_cases hexec
    · exact hcommit s' n (heffect s.countCycle s' he (hcount s hs))
    · exact hhalt s.countCycle (hcount s hs)
    · exact hraise s.countCycle c (hcount s hs)

theorem step_cfg (h : step s = .next t) : t.cfg = s.cfg :=
  step_keeps (P := fun u => u.cfg = s.cfg) (fun _ hu => hu) (fun _ _ hu => hu) (fun _ hu => hu)
    (fun _ _ he hu => he.cfg_eq.trans hu) (fun u n hu => (u.commit_cfg n).trans hu) rfl h

theorem step_slotZero (hzero : s.regs[0] = 0) (h : step s = .next t) : t.regs[0] = 0 :=
  step_keeps (P := fun u => u.regs[0] = 0) (fun _ hu => hu) (fun _ _ hu => hu) (fun _ hu => hu)
    (fun _ _ he hu => he.slotZero hu) (fun _ _ hu => by simpa using hu) hzero h

/-- Settles O45: no step changes the configuration, so no run does. -/
theorem noRunChangesTheConfiguration : Obligations.NoRunChangesTheConfiguration := fun n s t h =>
  run_keeps (P := fun u => u.cfg = s.cfg) (fun _ _ hu hstep => (step_cfg hstep).trans hu) n s t rfl h

/-- Settles O54: every step keeps slot 0 at zero, and register 0 reads as zero whatever the slot holds. -/
theorem registerZeroIsZeroAfterAnyRun : Obligations.RegisterZeroIsZeroAfterAnyRun := fun n s t hzero h =>
  ⟨run_keeps (P := fun u => u.regs[0] = 0) (fun _ _ hu hstep => step_slotZero hu hstep) n s t hzero h, t.readReg_zero⟩

end Sys2Proof.Machine

/-! PROOFS. The cycle (60_exceptions.md R160 to R163, 70_reset_and_hazards.md R200, R201): the claims about one step that stops at a
guard, at the fetch or at the decode, or executes; the bookkeeping of every step; and totality. -/

namespace Sys2Proof.Machine

variable {s t : State} {i : Instr}

/-! ### A step that executes (60 R160) -/

/-- Settles O30: `step_of_runs`; counting the cycle is the state in which the instruction executes. -/
theorem stepRunsTheDecodedInstruction : Obligations.StepRunsTheDecodedInstruction := fun _ _ hready hdecode =>
  step_of_runs ⟨hready, hdecode⟩

theorem tableWord_toNat (w : Word) : tableWord 32 w.toNat = w := by
  rw [tableWord, Nat.mod_eq_of_lt w.isLt, BitVec.ofNat_toNat, BitVec.setWidth_eq]

theorem State.wordAtPc_placeFetchWord (hwf : s.mem.wf) (w : Word) : (s.placeFetchWord w).wordAtPc = w := by
  simp [State.wordAtPc, Memory.readWord_writeWord hwf]

/-- Settles O31: the word is placed where the fetch reads, and the guards and the fetch checks do not look at memory. -/
theorem placedWordRunsNext : Obligations.PlacedWordRunsNext := by
  intro s w i hready hwf hdecode
  rw [State.withFetchWord, tableWord_toNat]
  have hword : decode s.cfg.enc (s.placeFetchWord w).wordAtPc = .instr i := by rwa [State.wordAtPc_placeFetchWord hwf]
  exact step_of_runs ⟨hready, hword⟩

/-! ### A step that stops before it executes -/

theorem step_of_ready_of_fault {c : Cause} (hready : s.Ready) (hfault : fetchDecode s = .fault c) :
    ∃ t, step s = .next t ∧ StopsAs s.counted t (.faulted c) := by
  obtain ⟨hr, hguard, -⟩ := ready_iff.mp hready
  exact ⟨_, step_of_fetchDecode_fault hr hguard hfault, s.countCycle.stopsAs_raise c⟩

theorem fetchDecode_of_unknownInstruction (hready : s.Ready)
    (h : decode s.cfg.enc s.wordAtPc = .unknownInstruction s.wordAtPc) :
    fetchDecode s = .fault (.unknownInstruction s.wordAtPc) := by
  obtain ⟨-, -, hfetch⟩ := ready_iff.mp hready
  exact fetchDecode_fault_iff.mpr (.inr (.inl ⟨hfetch, h, rfl⟩))

theorem fetchDecode_of_unknownBranch (hready : s.Ready) (h : decode s.cfg.enc s.wordAtPc = .unknownBranch s.wordAtPc) :
    fetchDecode s = .fault (.unknownBranch s.wordAtPc) := by
  obtain ⟨-, -, hfetch⟩ := ready_iff.mp hready
  exact fetchDecode_fault_iff.mpr (.inr (.inr ⟨hfetch, h, rfl⟩))

/-- Settles O32: both decode errors end the cycle in the same way. -/
theorem undecodableWordFaultsPrecisely : Obligations.UndecodableWordFaultsPrecisely := fun _ hready =>
  ⟨fun h => step_of_ready_of_fault hready (fetchDecode_of_unknownInstruction hready h),
   fun h => step_of_ready_of_fault hready (fetchDecode_of_unknownBranch hready h)⟩

theorem canFetch_eq_false_iff : s.canFetch = false ↔ s.pc.toNat % 4 ≠ 0 ∨ 4 * s.cfg.memWords ≤ s.pc.toNat := by
  rw [← Bool.not_eq_true, State.canFetch_iff, not_and_or, Nat.not_lt, memBytes]

/-- Settles O33: the guards pass and the fetch refuses the pc. -/
theorem badPcFaultsAtFetch : Obligations.BadPcFaultsAtFetch := by
  intro s hr hcount hprev hpc
  have hguard : guardStop s = none := (guardStop_none_iff s).mpr ⟨hcount, hprev⟩
  have hfault : fetchDecode s = .fault (.fetchFault s.pc.toNat) :=
    fetchDecode_fault_iff.mpr (.inl ⟨canFetch_eq_false_iff.mpr hpc, rfl⟩)
  exact ⟨_, step_of_fetchDecode_fault hr hguard hfault, s.countCycle.stopsAs_raise _⟩

/-- Settles O34: the pc-repetition guard, below the step limit. -/
theorem repeatedPcStopsBeforeFetch : Obligations.RepeatedPcStopsBeforeFetch := fun s hr hcount hprev =>
  ⟨_, step_of_guardStop hr (guardStop_some_iff.mpr (.inr ⟨hcount, hprev, rfl⟩)), s.stopsAs_raise _⟩

/-- Settles O35: the step-limit guard comes first. -/
theorem stepLimitStopsTheCycle : Obligations.StepLimitStopsTheCycle := fun s hr hlimit =>
  ⟨_, step_of_guardStop hr (guardStop_some_iff.mpr (.inl ⟨hlimit, rfl⟩)), s.stopsAs_raise _⟩

/-! ### Unknown branches (44 R139, D24) -/

/-- Settles O24: the whole effect of `blt` is the fault. -/
theorem bltRaisesUnknownBranchOfItsWord : Obligations.BltRaisesUnknownBranchOfItsWord := fun rs1 rs2 imm s =>
  endsAs_of_exec_raise (exec_blt rs1 rs2 imm s)

/-- A branch word that is neither beq, bne nor the halt word decodes to `blt` or to nothing. -/
theorem decode_branch_cases {e : Enc} {w : Word} (he : e.wf = true) (hop : fieldOpcode w = e.opcBranch)
    (hbeq : fieldFunct3 w ≠ e.f3Beq) (hbne : fieldFunct3 w ≠ e.f3Bne) :
    decode e w = .instr (.blt (fieldRs1 w) (fieldRs2 w) (immB w)) ∨ decode e w = .unknownBranch w := by
  rw [decode_eq_selectB he hop, selectB, if_neg hbeq, if_neg hbne]
  split
  · exact .inl rfl
  · exact .inr rfl

/-- Settles O23: `blt` raises the error of its own word, which is the fetched one (30 R83); a word that is no instruction raises it at
decode. -/
theorem otherBranchFunct3IsAnUnknownBranch : Obligations.OtherBranchFunct3IsAnUnknownBranch := by
  intro s hready henc hop hbeq hbne
  have hwf : Enc.default.wf = true := by decide
  rcases decode_branch_cases hwf hop hbeq hbne with hblt | hunknown
  · rw [← henc] at hblt
    obtain ⟨-, hword⟩ := encodeOfDecodeIsTheWord _ _ _ hblt
    have hstep := step_of_runs ⟨hready, hblt⟩
    rw [exec_blt, State.countCycle_cfg, hword] at hstep
    exact ⟨_, hstep, s.countCycle.stopsAs_raise _⟩
  · rw [← henc] at hunknown
    exact step_of_ready_of_fault hready (fetchDecode_of_unknownBranch hready hunknown)

/-! ### The bookkeeping of every step (10 R34, R35) -/

theorem ExecResult.stepCount_eq (h : ExecResult s i t) : t.stepCount = s.stepCount := by
  cases h with
  | commits hwrites hnext => simp [hwrites.effect.stepCount_eq]
  | halts hi => rfl
  | badAddress r rs1 imm hi hadmits => rfl
  | noBranch rs1 rs2 imm => rfl

/-- Only a commit sets prev_pc, and only a commit can leave the core Running. -/
theorem ExecResult.prevPc_cases (h : ExecResult s i t) :
    t.prevPc = some s.pc ∨ t.prevPc = s.prevPc ∧ t.runState ≠ .running := by
  cases h with
  | commits hwrites hnext => exact .inl (by simp [hwrites.effect.pc_eq])
  | halts hi => exact .inr ⟨rfl, nofun⟩
  | badAddress r rs1 imm hi hadmits => exact .inr ⟨rfl, nofun⟩
  | noBranch rs1 rs2 imm => exact .inr ⟨rfl, nofun⟩

/-- Settles O42: a guard stop counts nothing; every other step counts one, and only a commit leaves the core Running. -/
theorem bookkeepingOfEveryCycle : Obligations.BookkeepingOfEveryCycle := by
  intro s t hr hstep
  simp only [← guardStop_none_iff]
  cases stepResult_of_step hr hstep with
  | stopped hguard => simp [hguard]
  | rejected hguard hfault => simp [hguard]
  | executed hruns hresult =>
    obtain ⟨-, hguard, -⟩ := runs_iff.mp hruns
    refine ⟨by simp [hguard, hresult.stepCount_eq], ?_⟩
    obtain hprev | ⟨hprev, hstop⟩ := hresult.prevPc_cases
    · exact ⟨.inr hprev, fun _ => hprev⟩
    · exact ⟨.inl hprev, fun hrun => absurd hrun hstop⟩

/-- Settles O36: the step that went on has made the pc the previous pc, so one of the two guards stops the next. -/
theorem selfJumpExecutesOnce : Obligations.SelfJumpExecutesOnce := by
  intro s t i hruns hstep hrun hpc
  obtain ⟨hr, hguard, -⟩ := runs_iff.mp hruns
  obtain ⟨hcount, -, hprev⟩ := bookkeepingOfEveryCycle s t hr hstep
  rw [if_pos ((guardStop_none_iff s).mp hguard)] at hcount
  have hstop : guardStop t =
      some (if s.stepCount + 1 < s.cfg.stepLimit then .pcRepeatGuard s.pc else .stepLimitGuard) := by
    rw [guardStop_some_iff, hcount, step_cfg hstep, hpc]
    split
    · next hlt => exact .inr ⟨hlt, hprev hrun, rfl⟩
    · next hge => exact .inl ⟨Nat.not_lt.mp hge, rfl⟩
  exact ⟨_, step_of_guardStop hrun hstop, t.stopsAs_raise _⟩

/-! ### Totality (40 R96, U6) -/

/-- Settles O16: the form is the one JALR_ALIAS is about. -/
theorem jalrAliasIsRefusedWhenConfigured : Obligations.JalrAliasIsRefusedWhenConfigured := fun r imm _ hcfg hne =>
  exec_jalr_of_refused r r imm hcfg (by simpa [linkIsBase] using hne)

/-- Settles O38: a cycle that does not execute answers a next state, and `exec_cases` says when one that executes does. -/
theorem everyStepAnswersExceptTheRefusedAlias : Obligations.EveryStepAnswersExceptTheRefusedAlias := by
  intro s
  by_cases hr : s.runState = .running
  · cases hguard : guardStop s with
    | some c => exact .inl ⟨_, step_of_guardStop hr hguard⟩
    | none =>
      cases hfetch : fetchDecode s with
      | fault c => exact .inl ⟨_, step_of_fetchDecode_fault hr hguard hfetch⟩
      | instr i =>
        have hruns : s.Runs i := runs_iff.mpr ⟨hr, hguard, hfetch⟩
        rw [step_of_runs hruns]
        obtain ⟨t, hexec, -⟩ | ⟨hcfg, ⟨r, imm, hne, rfl⟩, hexec⟩ := exec_cases i s.countCycle
        · exact .inl ⟨t, hexec⟩
        · exact .inr ⟨hcfg, r, imm, hne, hruns, hexec⟩
  · exact .inl ⟨s, step_of_not_running hr⟩

end Sys2Proof.Machine

/-! PROOFS. lw, sw and jalr (42_i_type.md R122, R123, 43_s_type.md R131), loads and fetches after a store (20_memory.md R45, R50, R53),
and the label offset law (95_test_vectors.md V7). -/

namespace Sys2Proof.Machine

variable {s t : State}

/-! ### lw and jalr (42 R122, R123) -/

/-- Settles O14: the word is `encode` of the lw, and the admission check decides between its two ends. -/
theorem lwLoadsTheContainingWordOrFaults : Obligations.LwLoadsTheContainingWordOrFaults := by
  refine fun rd rs1 imm => ⟨fun _ he => decode_encode_lw he rd rs1 imm, fun s => ?_⟩
  change if 0 ≤ s.baseDisp rs1 imm ∧ s.baseDisp rs1 imm < 4 * s.cfg.memWords then _ else _
  simp only [← admits_iff]
  split
  · next h => exact completesWriting_of_exec (exec_lw_of_admits s rd rs1 imm h)
  · next h => exact endsAs_of_exec_raise (exec_lw_of_not_admits s rd rs1 imm h)

/-- Settles O15: outside the form that JALR_ALIAS is about, and under read_first in that form too, jalr is its link and its commit. -/
theorem jalrLinksAndJumpsToTheOldBase : Obligations.JalrLinksAndJumpsToTheOldBase := by
  refine fun rd rs1 imm => ⟨fun _ he => decode_encode_jalr he rd rs1 imm, fun s hform => ?_⟩
  have hmeant : ¬ (s.cfg.jalrAlias = .refuse ∧ linkIsBase rd rs1 = true) := by
    rintro ⟨hrefuse, hlink⟩
    obtain ⟨rfl, hne⟩ : rd = rs1 ∧ rd ≠ 0 := by simpa [linkIsBase] using hlink
    have hzero : rd = 0 := by simpa [hrefuse] using hform
    exact hne hzero
  exact completesLinking_of_exec (exec_jalr_of_not_refused rd rs1 imm hmeant)

/-! ### sw (43 R131) -/

/-- The state after an admitted store. -/
def State.stored (s : State) (rs2 rs1 : RegIdx) (imm : BitVec 12) : State :=
  State.commit { s with mem := s.mem.writeWord (wordIndex (s.baseDisp rs1 imm)) (s.readReg rs2) } s.sequential

section
variable (rs2 rs1 : RegIdx) (imm : BitVec 12)

@[simp] theorem State.stored_cfg : (s.stored rs2 rs1 imm).cfg = s.cfg := by simp [State.stored]
@[simp] theorem State.stored_pc : (s.stored rs2 rs1 imm).pc = trunc32 s.sequential := by simp [State.stored]
@[simp] theorem State.stored_readReg (r : RegIdx) : (s.stored rs2 rs1 imm).readReg r = s.readReg r := by
  simp [State.stored, State.readReg]
@[simp] theorem State.stored_stepCount : (s.stored rs2 rs1 imm).stepCount = s.stepCount := by simp [State.stored]
@[simp] theorem State.stored_mem :
    (s.stored rs2 rs1 imm).mem = s.mem.writeWord (wordIndex (s.baseDisp rs1 imm)) (s.readReg rs2) := by
  simp [State.stored]

theorem State.committed_stored (s : State) : Committed s (s.stored rs2 rs1 imm) s.sequential :=
  ⟨by simp [State.stored], by simp [trunc32], by simp only [State.stored, State.commit_runState, inWordRange_iff]⟩

end

/-- Settles O17: the word is `encode` of the sw; an admitted store is one word write and a commit. -/
theorem swReplacesTheContainingWordOrFaults : Obligations.SwReplacesTheContainingWordOrFaults := by
  refine fun rs2 rs1 imm => ⟨fun _ he => decode_encode_sw he rs2 rs1 imm, fun s hwf => ?_⟩
  change if 0 ≤ s.baseDisp rs1 imm ∧ s.baseDisp rs1 imm < 4 * s.cfg.memWords then _ else _
  simp only [← admits_iff]
  split
  · next h =>
    refine ⟨s.stored rs2 rs1 imm, exec_sw_of_admits rs2 rs1 imm h, ?_, fun a ha => ?_, fun r => by simp, ?_, by simp, by simp⟩
    · rw [State.stored_mem, Memory.readWord_writeWord hwf]
      exact if_pos rfl
    · have hword : a / 4 ≠ wordIndex (s.baseDisp rs1 imm) := by unfold wordIndex State.baseDisp; omega
      rw [State.stored_mem, Memory.readByte_writeWord hwf, if_neg hword]
    · exact State.committed_stored rs2 rs1 imm s
  · next h => exact endsAs_of_exec_raise (exec_sw_of_not_admits rs2 rs1 imm h)

/-! ### Reading what was stored -/

/-- Admitted addresses have one word index exactly when they lie in one word (20 R44). -/
theorem wordIndex_eq_iff {ea ea' : Int} (h : 0 ≤ ea) (h' : 0 ≤ ea') : wordIndex ea' = wordIndex ea ↔ ea' / 4 = ea / 4 := by
  unfold wordIndex; omega

/-- Settles O28: the store changes no register, so the load's address is the one formed before it. -/
theorem loadAfterStoreGetsTheStoredWord : Obligations.LoadAfterStoreGetsTheStoredWord := by
  intro s t rs2 rs1 rd b imm off hwf ea ea' hea heaLt hea' heaLt' hrd hexec
  have hstore : admits s.cfg (s.baseDisp rs1 imm) = true := (admits_iff _ _).mpr ⟨hea, heaLt⟩
  rw [exec_sw_of_admits rs2 rs1 imm hstore] at hexec
  obtain rfl : s.stored rs2 rs1 imm = t := by injection hexec
  have haddr : (s.stored rs2 rs1 imm).baseDisp b off = s.baseDisp b off := by simp [State.baseDisp]
  have hload : admits (s.stored rs2 rs1 imm).cfg ((s.stored rs2 rs1 imm).baseDisp b off) = true := by
    rw [haddr, State.stored_cfg]
    exact (admits_iff _ _).mpr ⟨hea', heaLt'⟩
  have hindex : wordIndex (s.baseDisp b off) = wordIndex (s.baseDisp rs1 imm) ↔ ea' / 4 = ea / 4 := wordIndex_eq_iff hea hea'
  refine ⟨_, exec_lw_of_admits _ rd b off hload, ?_⟩
  rw [State.commit_readReg, State.readReg_writeReg, if_pos rfl, if_neg hrd, haddr, State.stored_mem,
    Memory.readWord_writeWord hwf]
  simp only [hindex]
  rfl

/-- A core still Running after a commit has the committed next pc (10 R27). -/
theorem State.toNat_pc_commit {n : Int} (hrun : (s.commit n).runState = .running) : ((s.commit n).pc.toNat : Int) = n := by
  rw [State.commit_runState] at hrun
  split at hrun
  · next hn =>
    obtain ⟨hlo, hhi⟩ := (inWordRange_iff n).mp hn
    rw [State.commit_pc, toNat_trunc32, Int.emod_eq_of_lt hlo hhi]
  · cases hrun

/-- Settles O29: the next fetch reads memory as the store left it. -/
theorem storeIsSeenByTheNextFetch : Obligations.StoreIsSeenByTheNextFetch := by
  intro s t rs2 rs1 imm j hwf hruns hnext hdecode hstep hready
  rw [step_of_runs hruns] at hstep
  obtain ⟨hrun, -⟩ := ready_iff.mp hready
  by_cases hadmits : admits s.countCycle.cfg (s.countCycle.baseDisp rs1 imm) = true
  · rw [exec_sw_of_admits rs2 rs1 imm hadmits] at hstep
    obtain rfl : s.countCycle.stored rs2 rs1 imm = t := by injection hstep
    have hpc : ((s.countCycle.stored rs2 rs1 imm).pc.toNat : Int) = s.pc.toNat + 4 := State.toNat_pc_commit hrun
    have hindex : (s.countCycle.stored rs2 rs1 imm).pc.toNat / 4 = wordIndex (s.countCycle.baseDisp rs1 imm) := by
      change _ = (((s.readReg rs1).toNat + imm.toInt : Int) / 4).toNat
      omega
    have hword : (s.countCycle.stored rs2 rs1 imm).wordAtPc = s.readReg rs2 := by
      rw [State.wordAtPc, hindex, State.stored_mem, State.countCycle_mem, Memory.readWord_writeWord hwf]
      exact if_pos rfl
    exact step_of_runs ⟨hready, by rw [hword, State.stored_cfg]; exact hdecode⟩
  · rw [exec_sw_of_not_admits rs2 rs1 imm hadmits] at hstep
    obtain rfl : s.countCycle.raise _ = t := by injection hstep
    cases hrun

/-! ### Labels (95 V7) -/

theorem toInt_toSignedBits {v : Int} {w : Nat} (hw : 0 < w) (hlo : -(2 ^ (w - 1)) ≤ v) (hhi : v ≤ 2 ^ (w - 1) - 1) :
    (toSignedBits v w).toInt = v := by
  rw [← fromSignedBits_eq_toInt, fromSignedBits_toSignedBits hw hlo hhi]

/-- An offset L - P from P leads to L. -/
theorem State.pcRelative_label {L k : Nat} (hlo : -(2 ^ k) ≤ (L - s.pc.toNat : Int)) (hhi : (L - s.pc.toNat : Int) ≤ 2 ^ k - 1) :
    s.pcRelative (toSignedBits (L - s.pc.toNat) (k + 1)) = L := by
  rw [State.pcRelative, toInt_toSignedBits k.succ_pos hlo hhi]
  omega

/-- A next pc that is a 32-bit value is reached, and the core goes on as it was. -/
theorem State.commit_natCast {L : Nat} (hL : L < 2 ^ 32) :
    (s.commit L).pc.toNat = L ∧ (s.commit L).runState = s.runState := by
  have hrange : inWordRange L = true := (inWordRange_iff _).mpr ⟨by omega, by omega⟩
  have hpc : ((s.commit L).pc.toNat : Int) = L := by
    rw [State.commit_pc, toNat_trunc32, Int.emod_eq_of_lt (by omega) (by omega)]
  exact ⟨by exact_mod_cast hpc, by rw [State.commit_runState, if_pos hrange]⟩

/-- Settles O25: each of the three commits the pc-relative target, which is the label. -/
theorem jumpsAndTakenBranchesReachTheirLabel : Obligations.JumpsAndTakenBranchesReachTheirLabel := by
  refine fun s L hL => ⟨fun rd hlo hhi => ?_, fun hlo hhi => ⟨fun rs1 rs2 heq => ?_, fun rs1 rs2 hne => ?_⟩⟩
  · refine ⟨_, exec_jal s rd _, ?_⟩
    rw [State.pcRelative_label (k := 20) hlo hhi, ← State.writeReg_runState s rd s.link]
    exact State.commit_natCast hL
  · refine ⟨_, exec_beq s rs1 rs2 _, ?_⟩
    rw [if_pos heq, State.pcRelative_label (k := 12) hlo hhi]
    exact State.commit_natCast hL
  · refine ⟨_, exec_bne s rs1 rs2 _, ?_⟩
    rw [if_pos hne, State.pcRelative_label (k := 12) hlo hhi]
    exact State.commit_natCast hL

end Sys2Proof.Machine

/-! PROOFS. Safety (60_exceptions.md R162 to R168, 10_state.md R23, R27, 20_memory.md R41): every claim about what a step changes and
how it ends is read off `StepResult` and `ExecResult`. -/

namespace Sys2Proof.Machine

variable {s s' t : State} {i : Instr}

/-! ### The commit (10 R27) -/

/-- A commit leaves a Running core Running, or in the FetchFault of a next pc outside 32 bits. -/
theorem State.commit_runState_cases (n : Int) (hr : s.runState = .running) :
    (s.commit n).runState = .running ∨
      (s.commit n).runState = .faulted (.fetchFault n) ∧ (n < 0 ∨ 2 ^ 32 ≤ n) := by
  have hout : ¬ inWordRange n = true ↔ n < 0 ∨ 2 ^ 32 ≤ n := by rw [inWordRange_iff]; omega
  rw [State.commit_runState, ← hout]
  split
  · exact .inl hr
  · next h => exact .inr ⟨rfl, h⟩

/-- An instruction whose next pc is not the sequential one is a jump or a taken branch. -/
theorem State.nextPcOf_cases {n : Int} (h : s.nextPcOf i = some n) :
    n = s.pc.toNat + 4 ∨
    (∃ rd imm, i = .jal rd imm ∧ n = s.pc.toNat + imm.toInt) ∨
    (∃ rs1 rs2 imm, i = .beq rs1 rs2 imm ∧ s.readReg rs1 = s.readReg rs2 ∧ n = s.pc.toNat + imm.toInt) ∨
    (∃ rs1 rs2 imm, i = .bne rs1 rs2 imm ∧ s.readReg rs1 ≠ s.readReg rs2 ∧ n = s.pc.toNat + imm.toInt) ∨
    (∃ rd rs1 imm, i = .jalr rd rs1 imm ∧ n = (s.readReg rs1).toNat + imm.toInt) := by
  cases i with
  | halt => cases h
  | haltSys ignored => cases h
  | blt rs1 rs2 imm => cases h
  | jal rd imm => exact .inr (.inl ⟨rd, imm, rfl, (Option.some.inj h).symm⟩)
  | jalr rd rs1 imm => exact .inr (.inr (.inr (.inr ⟨rd, rs1, imm, rfl, (Option.some.inj h).symm⟩)))
  | beq rs1 rs2 imm =>
    have hn := (Option.some.inj h).symm
    split at hn
    · next heq => exact .inr (.inr (.inl ⟨rs1, rs2, imm, rfl, heq, hn⟩))
    · exact .inl hn
  | bne rs1 rs2 imm =>
    have hn := (Option.some.inj h).symm
    split at hn
    · next hne => exact .inr (.inr (.inr (.inl ⟨rs1, rs2, imm, rfl, hne, hn⟩)))
    · exact .inl hn
  | _ => exact .inl (Option.some.inj h).symm

/-! ### How an instruction faults or halts -/

/-- An instruction writes memory only when its next pc is the sequential one. -/
theorem Writes.mem_eq_or_sequential {n : Int} (h : Writes s i s') (hnext : s.nextPcOf i = some n) :
    s'.mem = s.mem ∨ n = s.sequential := by
  cases h with
  | nothing => exact .inl rfl
  | register v hdest => exact .inl (s.writeReg_mem _ v)
  | word rs2 rs1 imm hadmits => exact .inr (Option.some.inj hnext).symm

/-- An instruction that ends in a fault has committed a next pc outside 32 bits, or has changed nothing (60 R163). -/
theorem ExecResult.faulted_cases {c : Cause} (h : ExecResult s i t) (hr : s.runState = .running) (hc : t.runState = .faulted c) :
    (∃ n, c = .fetchFault n ∧ (n < 0 ∨ 2 ^ 32 ≤ n) ∧ s.nextPcOf i = some n ∧ t.prevPc = some s.pc ∧
      (t.mem = s.mem ∨ n = s.sequential)) ∨
    (t = s.raise c ∧
      ((∃ r rs1 imm, (i = .lw r rs1 imm ∨ i = .sw r rs1 imm) ∧ ¬ admits s.cfg (s.baseDisp rs1 imm) = true ∧
          c = .memoryAccess (s.baseDisp rs1 imm)) ∨
        ∃ rs1 rs2 imm, i = .blt rs1 rs2 imm ∧ c = .unknownBranch (encode s.cfg.enc i))) := by
  cases h with
  | @commits i s' n hwrites hnext =>
    obtain hrun | ⟨hfault, hn⟩ := s'.commit_runState_cases n (hwrites.effect.runState_eq.trans hr)
    · simp [hrun] at hc
    · obtain rfl : Cause.fetchFault n = c := by simpa [hfault] using hc
      exact .inl ⟨n, rfl, hn, hnext, by simp [hwrites.effect.pc_eq], by simpa using hwrites.mem_eq_or_sequential hnext⟩
  | halts hi => cases hc
  | badAddress r rs1 imm hi hadmits =>
    cases hc
    exact .inr ⟨rfl, .inl ⟨r, rs1, imm, hi, hadmits, rfl⟩⟩
  | noBranch rs1 rs2 imm =>
    cases hc
    exact .inr ⟨rfl, .inr ⟨rs1, rs2, imm, rfl, rfl⟩⟩

/-- The halt outcome is that of the two halt instructions (60 R162). -/
theorem ExecResult.halted (h : ExecResult s i t) (hr : s.runState = .running) (hhalted : t.runState = .halted) :
    t = s.halt ∧ (i = .halt ∨ ∃ ignored, i = .haltSys ignored) := by
  cases h with
  | @commits i s' n hwrites hnext =>
    obtain hrun | ⟨hfault, -⟩ := s'.commit_runState_cases n (hwrites.effect.runState_eq.trans hr)
    · simp [hrun] at hhalted
    · simp [hfault] at hhalted
  | halts hi => exact ⟨rfl, hi⟩
  | badAddress r rs1 imm hi hadmits => cases hhalted
  | noBranch rs1 rs2 imm => cases hhalted

/-! ### Faults and their causes (60 R163, R165) -/

/-- The result of the instruction that a step executes. -/
theorem execResult_of_step (hruns : s.Runs i) (h : step s = .next t) : ExecResult s.countCycle i t :=
  execResult_of_exec ((step_of_runs hruns).symm.trans h)

/-- Settles O27: a FetchFault of an executed instruction is that of its commit, and a pc from which a word was fetched is too small
for pc + 4, or a forward jump, to leave 32 bits. -/
theorem commitFaultsExactlyOutside32Bits : Obligations.CommitFaultsExactlyOutside32Bits := by
  refine ⟨fun s n => ⟨s.committed_commit n, fun r => by simp, fun a => by simp, by simp, by simp⟩, ?_⟩
  intro s t i n hmem hruns hstep hfault
  have hresult := execResult_of_step hruns hstep
  obtain ⟨⟨hr, -, -, -, hpc⟩, -⟩ := hruns
  obtain ⟨m, hm, hout, hnext, -, -⟩ | ⟨-, ⟨r, rs1, imm, -, -, hc⟩ | ⟨rs1, rs2, imm, -, hc⟩⟩ := hresult.faulted_cases hr hfault
  · obtain rfl : n = m := by simpa using hm
    rw [State.nextPcOf_countCycle] at hnext
    obtain hseq | ⟨rd, imm, rfl, hn⟩ | ⟨rs1, rs2, imm, rfl, heq, hn⟩ | ⟨rs1, rs2, imm, rfl, hne, hn⟩ | ⟨rd, rs1, imm, rfl, hn⟩ :=
      State.nextPcOf_cases hnext
    · omega
    · have := imm.toInt_lt
      exact .inl ⟨rd, imm, rfl, hn, by omega⟩
    · have := imm.toInt_lt
      exact .inr (.inl ⟨rs1, rs2, imm, rfl, heq, hn, by omega⟩)
    · have := imm.toInt_lt
      exact .inr (.inr (.inl ⟨rs1, rs2, imm, rfl, hne, hn, by omega⟩))
    · exact .inr (.inr (.inr ⟨rd, rs1, imm, rfl, hn, hout⟩))
  · cases hc
  · cases hc

theorem not_admits_iff {c : Config} {ea : Int} : ¬ admits c ea = true ↔ ea < 0 ∨ 4 * (c.memWords : Int) ≤ ea := by
  rw [admits_iff]; omega

/-- Settles O39: the guard, the fetch, the decode and the instruction each raise their own causes. -/
theorem everyFaultHasItsCause : Obligations.EveryFaultHasItsCause := by
  intro s t c hr hstep hc
  cases stepResult_of_step hr hstep with
  | stopped hguard =>
    cases hc
    obtain ⟨hlimit, rfl⟩ | ⟨hcount, hprev, rfl⟩ := guardStop_some_iff.mp hguard
    · exact hlimit
    · exact ⟨hcount, rfl, hprev⟩
  | rejected hguard hfault =>
    cases hc
    obtain ⟨hfetch, rfl⟩ | ⟨hfetch, hdecode, rfl⟩ | ⟨hfetch, hdecode, rfl⟩ := fetchDecode_fault_iff.mp hfault
    · exact .inl ⟨rfl, canFetch_eq_false_iff.mp hfetch⟩
    · exact ⟨ready_iff.mpr ⟨hr, hguard, hfetch⟩, rfl, hdecode⟩
    · exact ⟨ready_iff.mpr ⟨hr, hguard, hfetch⟩, rfl, .inl hdecode⟩
  | @executed i _ hruns hresult =>
    obtain ⟨n, rfl, hn, hnext, -, -⟩ | ⟨-, ⟨r, rs1, imm, hi, hadmits, rfl⟩ | ⟨rs1, rs2, imm, hi, rfl⟩⟩ :=
      hresult.faulted_cases hr hc
    · exact .inr ⟨hn, i, hruns, by rwa [State.nextPcOf_countCycle] at hnext⟩
    · refine ⟨not_admits_iff.mp hadmits, r, rs1, imm, ?_, rfl⟩
      obtain rfl | rfl := hi
      · exact .inl hruns
      · exact .inr hruns
    · obtain ⟨hready, hdecode⟩ := hruns
      obtain ⟨-, hword⟩ := encodeOfDecodeIsTheWord _ _ _ hdecode
      refine ⟨hready, hword, .inr ⟨rs1, rs2, imm, ?_⟩⟩
      rw [State.countCycle_cfg, hword, hdecode, hi]

/-- Settles O41: a fault that is not the commit's changes nothing, and the commit's is never that of a store, whose next pc has 32
bits. -/
theorem faultsArePrecise : Obligations.FaultsArePrecise := by
  intro s t c hr hmem hstep hc
  cases stepResult_of_step hr hstep with
  | stopped hguard => exact ⟨fun _ => rfl, .inr ⟨fun _ => rfl, rfl, rfl⟩⟩
  | rejected hguard hfault => exact ⟨fun _ => rfl, .inr ⟨fun _ => rfl, rfl, rfl⟩⟩
  | @executed i _ hruns hresult =>
    obtain ⟨n, rfl, hn, -, hprev, hsame⟩ | ⟨rfl, -⟩ := hresult.faulted_cases hr hc
    · have hseq : n ≠ s.countCycle.sequential := by
        obtain ⟨⟨-, -, -, -, hpc⟩, -⟩ := hruns
        have hdef : s.countCycle.sequential = s.pc.toNat + 4 := rfl
        omega
      have hkept : t.mem = s.mem := hsame.resolve_right hseq
      exact ⟨fun a => by rw [hkept], .inl ⟨n, rfl, hn, hprev⟩⟩
    · exact ⟨fun _ => rfl, .inr ⟨fun _ => rfl, rfl, rfl⟩⟩

/-! ### The halt outcome (60 R162) -/

/-- The words of the two halt encodings, under the table of 00 R8. -/
theorem decode_default_halts_iff (w : Word) :
    (∃ i, decode Enc.default w = .instr i ∧ (i = .halt ∨ ∃ ignored, i = .haltSys ignored)) ↔
      w = 0x00000063 ∨ w.extractLsb' 0 7 = 0b1110011#7 := by
  constructor
  · rintro ⟨i, hdecode, rfl | ⟨ignored, rfl⟩⟩
    · exact .inl ((decode_default_eq_halt_iff w).mp hdecode)
    · obtain ⟨-, hword⟩ := encodeOfDecodeIsTheWord _ _ _ hdecode
      exact .inr (hword ▸ fieldOpcode_append _ ignored)
  · rintro (hw | hop)
    · exact ⟨_, (decode_default_eq_halt_iff w).mpr hw, .inl rfl⟩
    · exact ⟨_, decode_eq_haltSys hop, .inr ⟨_, rfl⟩⟩

/-- A step in which a Running core halts executes one of the two halt instructions, and does nothing else. -/
theorem step_halted (hr : s.runState = .running) (hstep : step s = .next t) (hhalted : t.runState = .halted) :
    t = s.countCycle.halt ∧ ∃ i, s.Runs i ∧ (i = .halt ∨ ∃ ignored, i = .haltSys ignored) := by
  cases stepResult_of_step hr hstep with
  | stopped hguard => cases hhalted
  | rejected hguard hfault => cases hhalted
  | @executed i _ hruns hresult =>
    obtain ⟨ht, hi⟩ := hresult.halted hr hhalted
    exact ⟨ht, i, hruns, hi⟩

/-- Settles O40: the two halt instructions are those of the two encodings. -/
theorem haltedExactlyByTheTwoHaltEncodings : Obligations.HaltedExactlyByTheTwoHaltEncodings := by
  intro s t hr henc hstep
  refine ⟨⟨fun hhalted => ?_, fun ⟨hready, hword⟩ => ?_⟩, fun hhalted => ?_⟩
  · obtain ⟨-, i, ⟨hready, hdecode⟩, hi⟩ := step_halted hr hstep hhalted
    exact ⟨hready, (decode_default_halts_iff _).mp ⟨i, henc ▸ hdecode, hi⟩⟩
  · obtain ⟨i, hdecode, hi⟩ := (decode_default_halts_iff _).mpr hword
    have hexec := (step_of_runs ⟨hready, henc ▸ hdecode⟩).symm.trans hstep
    obtain rfl | ⟨ignored, rfl⟩ := hi
    · cases hexec
      rfl
    · cases hexec
      rfl
  · obtain ⟨rfl, -⟩ := step_halted hr hstep hhalted
    exact s.countCycle.stopsAs_halt

/-! ### What a step changes (10 R23, 20 R41) -/

/-- A step that changes anything but the run state, the count and the pcs executes an instruction that writes. -/
theorem step_writes_cases (h : step s = .next t) :
    (t.mem = s.mem ∧ t.regs = s.regs) ∨
      ∃ i s', s.Runs i ∧ Writes s.countCycle i s' ∧ t.mem = s'.mem ∧ t.regs = s'.regs := by
  by_cases hr : s.runState = .running
  · cases stepResult_of_step hr h with
    | stopped hguard => exact .inl ⟨rfl, rfl⟩
    | rejected hguard hfault => exact .inl ⟨rfl, rfl⟩
    | @executed i _ hruns hresult =>
      cases hresult with
      | commits hwrites hnext => exact .inr ⟨i, _, hruns, hwrites, by simp, by simp⟩
      | halts hi => exact .inl ⟨rfl, rfl⟩
      | badAddress r rs1 imm hi hadmits => exact .inl ⟨rfl, rfl⟩
      | noBranch rs1 rs2 imm => exact .inl ⟨rfl, rfl⟩
  · obtain rfl : s = t := by
      rw [step_of_not_running hr] at h
      injection h
    exact .inl ⟨rfl, rfl⟩

/-- Settles O43: the one write that changes memory is a store's, to the word of its admitted address. -/
theorem onlySwChangesMemory : Obligations.OnlySwChangesMemory := by
  intro s t a hwf hstep hchanged
  obtain ⟨hmem, -⟩ | ⟨i, s', hruns, hwrites, hmem, -⟩ := step_writes_cases hstep
  · exact absurd (by rw [hmem]) hchanged
  · rw [hmem] at hchanged
    cases hwrites with
    | nothing => exact absurd rfl hchanged
    | register v hdest => exact absurd (by simp) hchanged
    | word rs2 rs1 imm hadmits =>
      obtain ⟨hnonneg, -⟩ := (admits_iff _ _).mp hadmits
      have hbyte := Memory.readByte_writeWord hwf (wordIndex (s.baseDisp rs1 imm)) a (s.readReg rs2)
      have hword : a / 4 = wordIndex (s.baseDisp rs1 imm) := by
        by_contra hother
        rw [if_neg hother] at hbyte
        exact hchanged hbyte
      refine ⟨rs2, rs1, imm, hruns, ?_⟩
      change s.baseDisp rs1 imm / 4 = _
      change 0 ≤ s.baseDisp rs1 imm at hnonneg
      unfold wordIndex at hword
      omega

/-- Settles O44: the one write that changes a register is that of the destination, and register 0 is not written. -/
theorem onlyTheDestinationRegisterChanges : Obligations.OnlyTheDestinationRegisterChanges := by
  intro s t r hstep hchanged
  obtain ⟨-, hregs⟩ | ⟨i, s', hruns, hwrites, -, hregs⟩ := step_writes_cases hstep
  · exact absurd (by simp [State.readReg, hregs]) hchanged
  · have hread : t.readReg r = s'.readReg r := by simp [State.readReg, hregs]
    rw [hread] at hchanged
    cases hwrites with
    | nothing => exact absurd rfl hchanged
    | @register _ rd v hdest =>
      obtain rfl : r = rd := by
        by_contra hother
        exact hchanged (by rw [State.readReg_writeReg, if_neg hother, State.countCycle_readReg])
      refine ⟨fun hzero => hchanged ?_, i, hruns, Instr.dest_eq_some hdest⟩
      subst hzero
      simp
    | word rs2 rs1 imm hadmits => exact absurd rfl hchanged

/-! ### What a step reads (20 R41, R47) -/

/-- The state with another memory. -/
def State.withMem (s : State) (m : Memory) : State := { s with mem := m }

section
variable (s : State) (m : Memory)

@[simp] theorem State.withMem_mem : (s.withMem m).mem = m := rfl
@[simp] theorem State.withMem_pc : (s.withMem m).pc = s.pc := rfl
@[simp] theorem State.withMem_cfg : (s.withMem m).cfg = s.cfg := rfl
@[simp] theorem State.withMem_readReg (r : RegIdx) : (s.withMem m).readReg r = s.readReg r := rfl
@[simp] theorem State.withMem_sequential : (s.withMem m).sequential = s.sequential := rfl
@[simp] theorem State.withMem_link : (s.withMem m).link = s.link := rfl
@[simp] theorem State.withMem_baseDisp (rs1 : RegIdx) (imm : BitVec 12) :
    (s.withMem m).baseDisp rs1 imm = s.baseDisp rs1 imm := rfl
@[simp] theorem State.withMem_pcRelative {w : Nat} (imm : BitVec w) : (s.withMem m).pcRelative imm = s.pcRelative imm := rfl
@[simp] theorem State.withMem_raise (c : Cause) : (s.withMem m).raise c = (s.raise c).withMem m := rfl
@[simp] theorem State.withMem_halt : (s.withMem m).halt = s.halt.withMem m := rfl
@[simp] theorem State.withMem_writeReg (r : RegIdx) (v : Word) :
    (s.withMem m).writeReg r v = (s.writeReg r v).withMem m := by
  unfold State.writeReg
  split <;> rfl
@[simp] theorem State.withMem_commit (n : Int) : (s.withMem m).commit n = (s.commit n).withMem m := by
  unfold State.commit
  split <;> rfl
@[simp] theorem State.withMem_canFetch : (s.withMem m).canFetch = s.canFetch := rfl

end

/-- The cycle sees only the fetched word of memory before it executes. -/
theorem fetchDecode_withMem {m : Memory} (h : s.canFetch = true → s.wordAtPc = m.readWord (s.pc.toNat / 4)) :
    fetchDecode (s.withMem m) = fetchDecode s := by
  have hfetch : (s.withMem m).fetch = s.fetch := by
    unfold State.fetch
    rw [State.withMem_canFetch]
    split
    · next hcan => exact congrArg some (h hcan).symm
    · rfl
  simp only [fetchDecode, hfetch, State.withMem_cfg, State.withMem_pc]

/-- An instruction sees only the word that an `lw` loads. -/
theorem exec_withMem {m : Memory} (hexec : exec i s = .next t)
    (hload : ∀ rd rs1 imm, i = .lw rd rs1 imm → admits s.cfg (s.baseDisp rs1 imm) = true →
      s.mem.readWord (wordIndex (s.baseDisp rs1 imm)) = m.readWord (wordIndex (s.baseDisp rs1 imm))) :
    ∃ m', exec i (s.withMem m) = .next (t.withMem m') := by
  cases i with
  | lw rd rs1 imm =>
    by_cases h : admits s.cfg (s.baseDisp rs1 imm) = true
    · rw [exec_lw_of_admits s rd rs1 imm h, hload rd rs1 imm rfl h] at hexec
      injection hexec with ht
      exact ⟨m, ht ▸ by simpa using exec_lw_of_admits (s.withMem m) rd rs1 imm h⟩
    · rw [exec_lw_of_not_admits s rd rs1 imm h] at hexec
      injection hexec with ht
      exact ⟨m, ht ▸ exec_lw_of_not_admits (s.withMem m) rd rs1 imm h⟩
  | sw rs2 rs1 imm =>
    by_cases h : admits s.cfg (s.baseDisp rs1 imm) = true
    · rw [exec_sw_of_admits rs2 rs1 imm h] at hexec
      injection hexec with ht
      refine ⟨m.writeWord (wordIndex (s.baseDisp rs1 imm)) (s.readReg rs2), ht ▸ ?_⟩
      rw [exec_sw_of_admits (s := s.withMem m) rs2 rs1 imm h, ← State.withMem_commit]
      rfl
    · rw [exec_sw_of_not_admits rs2 rs1 imm h] at hexec
      injection hexec with ht
      exact ⟨m, ht ▸ exec_sw_of_not_admits (s := s.withMem m) rs2 rs1 imm h⟩
  | jalr rd rs1 imm =>
    by_cases h : s.cfg.jalrAlias = .refuse ∧ linkIsBase rd rs1 = true
    · obtain ⟨hcfg, hform⟩ := h
      rw [exec_jalr_of_refused rd rs1 imm hcfg hform] at hexec
      cases hexec
    · rw [exec_jalr_of_not_refused rd rs1 imm h] at hexec
      injection hexec with ht
      exact ⟨m, ht ▸ by simpa using exec_jalr_of_not_refused (s := s.withMem m) rd rs1 imm h⟩
  | beq rs1 rs2 imm =>
    rw [exec_beq] at hexec
    injection hexec with ht
    rw [← ht]
    exact ⟨m, (exec_beq (s.withMem m) rs1 rs2 imm).trans (congrArg _ (s.withMem_commit m _))⟩
  | bne rs1 rs2 imm =>
    rw [exec_bne] at hexec
    injection hexec with ht
    rw [← ht]
    exact ⟨m, (exec_bne (s.withMem m) rs1 rs2 imm).trans (congrArg _ (s.withMem_commit m _))⟩
  | _ =>
    simp only [exec_halt, exec_haltSys, exec_add, exec_sub, exec_slt, exec_srl, exec_or, exec_and, exec_addi, exec_jal, exec_blt,
      Host.Outcome.next.injEq] at hexec
    rw [← hexec]
    exact ⟨m, by simp⟩

/-- Settles O46: the guards and the fetch checks see no memory, the fetch sees the word at pc, and `exec_withMem` is the rest. -/
theorem stepDependsOnlyOnTheWordsItReads : Obligations.StepDependsOnlyOnTheWordsItReads := by
  intro s t m hfetched hloaded hstep
  change ∃ m', step (s.withMem m) = .next (t.withMem m')
  obtain ⟨hr, rfl⟩ | ⟨hr, c, hguard, rfl⟩ | ⟨hr, hguard, c, hfault, rfl⟩ | ⟨hr, hguard, i, hinstr, hexec⟩ := step_next_cases hstep
  · exact ⟨m, step_of_not_running hr⟩
  · exact ⟨m, step_of_guardStop hr hguard⟩
  · have hsame := fetchDecode_withMem fun hcan => hfetched (ready_iff.mpr ⟨hr, hguard, hcan⟩)
    exact ⟨m, step_of_fetchDecode_fault hr hguard (hsame.trans hfault)⟩
  · have hsame := fetchDecode_withMem fun hcan => hfetched (ready_iff.mpr ⟨hr, hguard, hcan⟩)
    have hruns : (s.withMem m).Runs i := runs_iff.mpr ⟨hr, hguard, hsame.trans hinstr⟩
    rw [step_of_runs hruns]
    refine exec_withMem hexec fun rd rs1 imm hi hadmits => ?_
    obtain ⟨hlo, hhi⟩ := (admits_iff _ _).mp hadmits
    exact hloaded rd rs1 imm (runs_iff.mpr ⟨hr, hguard, hi ▸ hinstr⟩) hlo hhi

end Sys2Proof.Machine

/-! PROOFS. Program load (70_reset_and_hazards.md R191, R193, R194): a line is the binary numeral of its word, an image is the list of
its lines' words, and the launch state holds the image and MEM_INIT in a memory that meets the invariant. -/

namespace Sys2Proof.Machine

/-! ### Lines (70 R193) -/

/-- The character that stands for a bit. -/
def bitChar (b : Bool) : Char := if b then '1' else '0'

/-- Reading one character more doubles what was read before it. -/
theorem parseBits_cons_eq_some_iff (c : Char) (rest : List Char) (acc n : Nat) :
    parseBits (c :: rest) acc = some n ↔ ∃ b : Bool, c = bitChar b ∧ parseBits rest (2 * acc + b.toNat) = some n := by
  rw [parseBits]
  split
  · next h => simp [h, bitChar]
  · split
    · next h => simp [h, bitChar]
    · next h0 h1 => simp [h0, h1, bitChar]

/-- The characters are the low bits of the result, most significant first, and what was read before them is the rest. -/
theorem parseBits_eq_some_iff (l : List Char) (acc n : Nat) :
    parseBits l acc = some n ↔
      (∀ j < l.length, l[j]? = some (bitChar (n.testBit (l.length - (j + 1))))) ∧ n / 2 ^ l.length = acc := by
  induction l generalizing acc with
  | nil => simp [parseBits, eq_comm]
  | cons c rest ih =>
    have hbit : n.testBit rest.length = decide (n / 2 ^ rest.length % 2 = 1) := Nat.testBit_eq_decide_div_mod_eq
    have hhalf : n / 2 ^ (rest.length + 1) = n / 2 ^ rest.length / 2 := by rw [pow_succ, Nat.div_div_eq_div_mul]
    have hdigit : ∀ b : Bool, n / 2 ^ rest.length = 2 * acc + b.toNat ↔
        b = n.testBit rest.length ∧ n / 2 ^ (rest.length + 1) = acc := by
      intro b
      rw [hbit, hhalf]
      cases b <;> simp <;> omega
    rw [List.length_cons, Nat.forall_lt_succ_left', parseBits_cons_eq_some_iff]
    simp only [ih, hdigit]
    constructor
    · rintro ⟨b, rfl, hrest, rfl, hacc⟩
      exact ⟨⟨by simp, by simpa using hrest⟩, hacc⟩
    · rintro ⟨⟨hhead, hrest⟩, hacc⟩
      exact ⟨_, by simpa using hhead, by simpa using hrest, rfl, hacc⟩

/-- Settles O52: a line of 32 characters is read as a number below 2^32, whose bits are those of the word. -/
theorem lineCharactersAreTheBitsOfTheWord : Obligations.LineCharactersAreTheBitsOfTheWord := by
  intro l w
  by_cases hlen : l.length = 32
  · have hword : parseLine l = some w ↔ parseBits l 0 = some w.toNat := by
      rw [parseLine, if_pos hlen]
      constructor
      · intro h
        obtain ⟨n, hn, rfl⟩ := Option.map_eq_some_iff.mp h
        obtain ⟨-, hsmall⟩ := (parseBits_eq_some_iff l 0 n).mp hn
        rw [hlen] at hsmall
        rw [hn, BitVec.toNat_ofNat, Nat.mod_eq_of_lt (by omega)]
      · intro h
        rw [h, Option.map_some, BitVec.ofNat_toNat, BitVec.setWidth_eq]
    have hsmall : w.toNat / 2 ^ 32 = 0 := Nat.div_eq_of_lt w.isLt
    rw [hword, parseBits_eq_some_iff, hlen]
    have hindex : ∀ j, 32 - (j + 1) = 31 - j := fun j => Nat.add_sub_add_right 31 1 j
    simp only [hsmall, and_true, true_and, BitVec.testBit_toNat, bitChar, hindex]
  · simp [parseLine, hlen]

/-! ### Images (70 R193, R194) -/

/-- An image that is read is the list of the words of its lines. -/
theorem parseImage_words {k : Nat} {lines : List (List Char)} {ws : List Word} (h : parseImage k lines = .words ws) :
    ws.map some = lines.map parseLine := by
  induction lines generalizing k ws with
  | nil => cases h; rfl
  | cons line rest ih =>
    rw [parseImage] at h
    split at h
    · cases h
    · next w hw =>
      split at h
      · cases h
      · next ws' hws =>
        cases h
        rw [List.map_cons, List.map_cons, hw, ih hws]

/-- An image is refused for one of its lines. -/
theorem parseImage_malformed {k j : Nat} {lines : List (List Char)} (h : parseImage k lines = .malformed j) :
    ∃ l ∈ lines, parseLine l = none := by
  induction lines generalizing k with
  | nil => cases h
  | cons line rest ih =>
    rw [parseImage] at h
    split at h
    · next hline => exact ⟨line, List.mem_cons_self, hline⟩
    · split at h
      · next j' hrest =>
        cases h
        obtain ⟨l, hl, hnone⟩ := ih hrest
        exact ⟨l, List.mem_cons_of_mem _ hl, hnone⟩
      · cases h

/-- Settles O53: an image with a malformed line has no words, and one without has as many as lines. -/
theorem loadAbortsExactlyOnBadLinesOrSize : Obligations.LoadAbortsExactlyOnBadLinesOrSize := by
  intro c memInit lines
  unfold loadProgram
  cases hparse : parseImage 0 lines with
  | malformed k => exact ⟨⟨fun _ => .inl (parseImage_malformed hparse), fun _ => ⟨_, rfl⟩⟩, fun _ hs => by cases hs⟩
  | words ws =>
    have hwords := parseImage_words hparse
    have hlength : ws.length = lines.length := by simpa using congrArg List.length hwords
    have hgood : ¬ ∃ l ∈ lines, parseLine l = none := by
      rintro ⟨l, hl, hnone⟩
      have hmem : none ∈ ws.map some := by
        rw [hwords, ← hnone]
        exact List.mem_map_of_mem hl
      simp at hmem
    dsimp only
    split
    · next hfits =>
      refine ⟨⟨nofun, fun h => ?_⟩, fun s hs => ⟨ws, hwords, by injection hs with hs; exact hs.symm⟩⟩
      obtain hbad | hlarge := h
      · exact absurd hbad hgood
      · omega
    · next hlarge => exact ⟨⟨fun _ => .inr (by omega), fun _ => ⟨_, rfl⟩⟩, fun _ hs => by cases hs⟩

/-! ### The launch state (70 R191, 10 R31) -/

theorem wf_writeImage (ws : List Word) (m : Memory) (k : Nat) (h : m.wf) : (writeImage m k ws).wf := by
  induction ws generalizing m k with
  | nil => exact h
  | cons w ws ih => exact ih _ _ (Memory.wf_writeWord h k w)

theorem within_writeImage (ws : List Word) (m : Memory) (k n : Nat) (h : m.within (4 * n)) (hk : k + ws.length ≤ n) :
    (writeImage m k ws).within (4 * n) := by
  induction ws generalizing m k with
  | nil => exact h
  | cons w ws ih =>
    rw [List.length_cons] at hk
    exact ih _ _ (Memory.within_writeWord h (by omega) w) (by omega)

/-- Word j of memory after the words of a list are written from word k on. -/
theorem readWord_writeImage (ws : List Word) (m : Memory) (k j : Nat) (h : m.wf) :
    (writeImage m k ws).readWord j = if k ≤ j then ws.getD (j - k) (m.readWord j) else m.readWord j := by
  induction ws generalizing m k with
  | nil => simp [writeImage]
  | cons w ws ih =>
    rw [writeImage, ih _ _ (Memory.wf_writeWord h k w), Memory.readWord_writeWord h]
    rcases Nat.lt_trichotomy j k with hlt | rfl | hgt
    · simp [Nat.not_le.mpr hlt, show ¬ k + 1 ≤ j by omega, hlt.ne]
    · simp
    · obtain ⟨d, rfl⟩ : ∃ d, j = k + 1 + d := ⟨j - (k + 1), by omega⟩
      simp [show k ≤ k + 1 + d by omega, show k + 1 + d - k = d + 1 by omega, show k + 1 + d ≠ k by omega]

/-- The words that a launch writes: the image, then MEM_INIT. -/
def launchWords (c : Config) (memInit : Nat → Word) (image : List Word) : List Word :=
  image ++ (List.range' image.length (c.memWords - image.length)).map memInit

theorem launch_mem (c : Config) (memInit : Nat → Word) (image : List Word) :
    (launch c memInit image).mem = writeImage ⟨[]⟩ 0 (launchWords c memInit image) := rfl

theorem length_launchWords {c : Config} {image : List Word} (memInit : Nat → Word) (h : image.length ≤ c.memWords) :
    (launchWords c memInit image).length = c.memWords := by
  simp [launchWords]; omega

theorem readWord_launch (c : Config) (memInit : Nat → Word) (image : List Word) (k : Nat) :
    (launch c memInit image).mem.readWord k = (launchWords c memInit image).getD k 0 := by
  rw [launch_mem, readWord_writeImage _ _ _ _ Memory.wf_empty, Memory.readWord_empty]
  simp

/-- Settles O51: the memory is the list of the launch words, and every other field is that of a fresh machine. -/
theorem launchPlacesTheImage : Obligations.LaunchPlacesTheImage := by
  refine fun c memInit image himage => ⟨fun k hk => ?_, fun k hk hlt => ?_, State.readReg_fresh c, rfl, rfl, rfl, rfl, rfl⟩
  · rw [readWord_launch, launchWords]
    simp [List.getD, List.getElem?_append_left hk, hk]
  · rw [readWord_launch, launchWords]
    have hpast : k - image.length < c.memWords - image.length := by omega
    simp [List.getD, List.getElem?_append_right hk, hpast, hk]

/-- Settles O50: memory is written in canonical form and within MEM_WORDS, and the machine is fresh otherwise. -/
theorem invariantHoldsAtEveryLaunch : Obligations.InvariantHoldsAtEveryLaunch := fun c memInit image hc himage =>
  { config := hc
    memCanonical := wf_writeImage _ _ _ Memory.wf_empty
    memInSpace := within_writeImage (launchWords c memInit image) _ 0 c.memWords nofun
      (by rw [length_launchWords memInit himage, Nat.zero_add])
    zeroRegister := by simp [launch, State.fresh]
    countInRange := Nat.zero_le _
    prevPcSet := fun _ => ⟨fun _ => rfl, fun _ => rfl⟩
    prevPcFetched := nofun
    haltedOnWord := nofun }

end Sys2Proof.Machine

/-! PROOFS. Whole runs (70_reset_and_hazards.md R201, R205): which cycles write a trace line, one line per completed cycle, and the
step limit as a bound on every run. -/

namespace Sys2Proof.Machine

variable {s t : State}

/-! ### Trace lines (70 R205) -/

/-- A cycle ends in Next or Halt exactly when it passes the guards and then halts or commits; no other cycle sets prev_pc to the pc. -/
theorem step_ended_iff (hr : s.runState = .running) (hstep : step s = .next t) :
    (t.runState = .running ∨ t.runState = .halted ∨ ∃ n, t.runState = .faulted (.fetchFault n) ∧ (n < 0 ∨ 2 ^ 32 ≤ n)) ↔
      guardStop s = none ∧ (t.runState = .halted ∨ t.prevPc = some s.pc) := by
  cases stepResult_of_step hr hstep with
  | stopped hguard =>
    obtain ⟨-, rfl⟩ | ⟨-, -, rfl⟩ := guardStop_some_iff.mp hguard
    · simp [hguard]
    · simp [hguard]
  | rejected hguard hfault =>
    obtain ⟨-, hprev⟩ := (guardStop_none_iff s).mp hguard
    obtain ⟨-, rfl⟩ | ⟨-, -, rfl⟩ | ⟨-, -, rfl⟩ := fetchDecode_fault_iff.mp hfault
    · have hpc : s.pc.toNat < 2 ^ 32 := s.pc.isLt
      simp [hprev]
      omega
    · simp [hprev]
    · simp [hprev]
  | executed hruns hresult =>
    obtain ⟨-, hguard, -⟩ := runs_iff.mp hruns
    obtain ⟨-, hprev⟩ := (guardStop_none_iff s).mp hguard
    cases hresult with
    | @commits i s' n hwrites hnext =>
      have hcommitted : (s'.commit n).prevPc = some s.pc := by simp [hwrites.effect.pc_eq]
      refine iff_of_true ?_ ⟨hguard, .inr hcommitted⟩
      obtain hrun | ⟨hfault, hn⟩ := s'.commit_runState_cases n (hwrites.effect.runState_eq.trans hr)
      · exact .inl hrun
      · exact .inr (.inr ⟨n, hfault, hn⟩)
    | halts hi => exact iff_of_true (.inr (.inl rfl)) ⟨hguard, .inl rfl⟩
    | badAddress r rs1 imm hi hadmits => simp [hprev]
    | noBranch rs1 rs2 imm => simp [hprev]

/-- Settles O57: the record is made under the condition that `step_ended_iff` reads off the cycle. -/
theorem traceLineExactlyOnNextOrHalt : Obligations.TraceLineExactlyOnNextOrHalt := by
  refine fun s t hr hstep => ⟨fun hended which => ?_, fun hnot which => ?_⟩
  · exact ⟨_, if_pos ⟨hr, (step_ended_iff hr hstep).mp hended⟩, rfl⟩
  · exact if_neg fun ⟨_, hcond⟩ => hnot ((step_ended_iff hr hstep).mpr hcond)

/-- A run that is still Running has been Running all along. -/
theorem running_of_run {n : Nat} (h : Host.Core.run core n s = .next t) (ht : t.runState = .running) : s.runState = .running := by
  by_contra hs
  have hstay : Host.Core.run core n s = .next s := terminalStatesNeverChange n s hs
  obtain rfl : s = t := by
    rw [hstay] at h
    injection h
  exact hs ht

theorem runTrace_succ_of_next {which : TracePc} {n : Nat} {s' : State} (h : step s = .next s') :
    runTrace which (n + 1) s = ((traceRecord which s s').toList ++ (runTrace which n s').1, (runTrace which n s').2) := by
  rw [runTrace, h]

/-- Settles O56: by induction on the steps, each of which ends Running and so writes one line. -/
theorem oneTraceLinePerCompletedCycle : Obligations.OneTraceLinePerCompletedCycle := by
  intro which n
  induction n with
  | zero =>
    intro s t hrun _
    injection hrun with hrun
    exact ⟨rfl, hrun⟩
  | succ n ih =>
    intro s t hrun ht
    obtain ⟨s', hstep, hrest⟩ := run_succ_cases hrun
    obtain ⟨hlines, hend⟩ := ih s' t hrest ht
    obtain ⟨hline, -⟩ := traceLineExactlyOnNextOrHalt s s' (running_of_run hrun ht) hstep
    obtain ⟨pc, hrecord, -⟩ := hline (.inl (running_of_run hrest ht)) which
    rw [runTrace_succ_of_next hstep, hrecord]
    exact ⟨by simp [hlines], hend⟩

/-! ### The step limit (70 R201) -/

/-- A step that leaves the core Running has used one cycle of the limit. -/
theorem stepCount_of_still_running (hr : s.runState = .running) (hstep : step s = .next t) (ht : t.runState = .running) :
    t.stepCount = s.stepCount + 1 ∧ s.stepCount < s.cfg.stepLimit := by
  obtain ⟨hguard, -⟩ := (step_ended_iff hr hstep).mp (.inl ht)
  obtain ⟨hlt, hprev⟩ := (guardStop_none_iff s).mp hguard
  obtain ⟨hcount, -⟩ := bookkeepingOfEveryCycle s t hr hstep
  exact ⟨by rw [hcount, if_pos ⟨hlt, hprev⟩], hlt⟩

/-- By induction on the cycles left: one more cycle is used, or the core has left Running and stays as it is. -/
theorem run_ends_within (k : Nat) (s : State) (hcfg : s.cfg.jalrAlias = .readFirst) (hk : s.cfg.stepLimit - s.stepCount ≤ k) :
    ∃ t : State, t.runState ≠ .running ∧ ∀ n, k + 1 ≤ n → Host.Core.run core n s = .next t := by
  by_cases hr : s.runState = .running
  · obtain ⟨s', hstep⟩ | ⟨hrefuse, -⟩ := everyStepAnswersExceptTheRefusedAlias s
    · have hrest : ∀ t n, (∀ m, k ≤ m → Host.Core.run core m s' = .next t) → k + 1 ≤ n → Host.Core.run core n s = .next t := by
        intro t n hrun hn
        obtain ⟨m, rfl⟩ : ∃ m, n = m + 1 := ⟨n - 1, by omega⟩
        rw [run_succ_of_next m hstep, hrun m (by omega)]
      by_cases hr' : s'.runState = .running
      · obtain ⟨hcount, hlt⟩ := stepCount_of_still_running hr hstep hr'
        have hcfg' := step_cfg hstep
        match k with
        | 0 => omega
        | k + 1 =>
          obtain ⟨t, ht, hrun⟩ := run_ends_within k s' (by rw [hcfg', hcfg]) (by rw [hcfg', hcount]; omega)
          exact ⟨t, ht, fun n => hrest t n hrun⟩
      · exact ⟨s', hr', fun n => hrest s' n fun m _ => terminalStatesNeverChange m s' hr'⟩
    · rw [hcfg] at hrefuse
      cases hrefuse
  · exact ⟨s, hr, fun n _ => terminalStatesNeverChange n s hr⟩

/-- Settles O55: with exactly the cycles left before the step limit. -/
theorem everyRunEndsWithinTheStepLimit : Obligations.EveryRunEndsWithinTheStepLimit := fun s hcfg =>
  run_ends_within _ s hcfg le_rfl

end Sys2Proof.Machine
